-- ==== Sys2Proof/Word.lean ====
section
/-! DEFINITION. The word types of the block: a 5-bit letter code, the 16-bit command and response
words, the 12-bit response data, and a table of 26 entries. -/

namespace Sys2Proof

/-- A 5-bit letter code (spec/00_scope.md R6). The codes 0 to 25 are letters, 26 to 31 are not. -/
abbrev Letter := BitVec 5

/-- A code that has passed its check: one of the 26 letters, so also one of the 26 entry indices. -/
abbrev Index := Fin 26

/-- A 16-bit command word (spec/30_encoding.md R70). -/
abbrev CmdWord := BitVec 16

/-- A 16-bit response word (spec/30_encoding.md R71). -/
abbrev RspWord := BitVec 16

/-- The 12-bit `DATA` field of a response (R71), also the width of a control register. -/
abbrev Data := BitVec 12

/-- A table (spec/00_scope.md R8, spec/10_state.md R20): 26 entries of 5 bits, entry `i` the image
of letter `i`. -/
abbrev Table := Vector Letter 26

end Sys2Proof
end

