-- ==== Sys2Proof/Syntax.lean ====
section
/-! DEFINITION. The nine commands as syntax, one constructor per row of spec/opcode_table.json. -/

namespace Sys2Proof

/-- The table select of the table space (spec/20_memory.md R51). -/
inductive TableSel where
  | sigma
  | tau
  | sigmaInv
  | tauInv
deriving DecidableEq, Repr

/-- The direction of a message (spec/10_state.md R26): 0 encipher, 1 decipher. -/
inductive Direction where
  | encipher
  | decipher
deriving DecidableEq, Repr

/-- The commands of spec/30_encoding.md R73. Operands are the fields of the word as they stand
(R74), so codes 26 to 31 can be written: the command's own rule faults on them. -/
inductive Instr where
  /-- `NOP` (R160). -/
  | nop
  /-- `RST` (R161). -/
  | rst
  /-- `RDC c` (R162): read control register `c`. -/
  | rdc (c : BitVec 5)
  /-- `LDK t, i, v` (R110): entry `i` of key table `t` becomes `v`. -/
  | ldk (t : TableSel) (i v : Letter)
  /-- `RDT s, i` (R111): read entry `i` of table `s`. -/
  | rdt (s : TableSel) (i : Letter)
  /-- `START d` (R112): validate the key pair and begin a message. -/
  | start (d : Direction)
  /-- `LET x` (R130): process one letter. -/
  | letter (x : Letter)
  /-- `END` (R131): close the message. -/
  | endMsg
  /-- `COMP a, b` (R132): compose the tables with the transposition `(a b)`. -/
  | comp (a b : Letter)
deriving DecidableEq, Repr

end Sys2Proof
end

