-- ==== Sys2Proof/WellFormed.lean ====
section
/-! DEFINITION. Which commands have an encoding. Every field of `Instr` has exactly the width of its
field in the word, so one check is left: LDK names a forward table. -/

namespace Sys2Proof

/-- The tables LDK may name: `SEL[1]` must be 0 in form SAB (spec/30_encoding.md R72), so 0 SIGMA
or 1 TAU; there is "no host-writable table" at `SEL` of 2 or 3 (R77). -/
def TableSel.isForward : TableSel → Bool
  | .sigma => true
  | .tau => true
  | .sigmaInv => false
  | .tauInv => false

/-- A command that some word encodes (spec/30_encoding.md R72, R73). -/
def Instr.wf : Instr → Bool
  | .nop => true
  | .rst => true
  | .rdc _ => true
  | .ldk t _ _ => t.isForward
  | .rdt _ _ => true
  | .start _ => true
  | .letter _ => true
  | .endMsg => true
  | .comp _ _ => true

end Sys2Proof
end

