-- ==== Sys2Proof/Decode.lean ====
section
/-! DEFINITION. The decoder, total on 16-bit words (spec/30_encoding.md R79), written from the
match/mask table of R73 and the operand fields of R74; then the encoder, written from the field
layout of R70. -/

namespace Sys2Proof

/-- The two bits of a table select (spec/20_memory.md R51). -/
def TableSel.code : TableSel → BitVec 2
  | .sigma => 0
  | .tau => 1
  | .sigmaInv => 2
  | .tauInv => 3

/-- The table a 2-bit select names (spec/20_memory.md R51). -/
def TableSel.ofCode (s : BitVec 2) : TableSel :=
  if s = 0 then .sigma else if s = 1 then .tau else if s = 2 then .sigmaInv else .tauInv

/-- The bit of a direction (spec/10_state.md R26): 0 encipher, 1 decipher. -/
def Direction.bit : Direction → Bool
  | .encipher => false
  | .decipher => true

/-- The direction a bit names (spec/10_state.md R26). -/
def Direction.ofBit (b : Bool) : Direction :=
  if b then .decipher else .encipher

/-- The names of the rows of the opcode map (spec/30_encoding.md R73). -/
inductive Opcode where
  | nop
  | rst
  | rdc
  | ldk
  | rdt
  | start
  | letter
  | endMsg
  | comp
deriving DecidableEq, Repr

/-- One row of the opcode map: a word is this command when `word AND mask = pattern`. -/
structure OpcodeRow where
  op : Opcode
  pattern : CmdWord
  mask : CmdWord
deriving DecidableEq, Repr

/-- Whether a word satisfies a row (spec/30_encoding.md R73). -/
def OpcodeRow.accepts (r : OpcodeRow) (w : CmdWord) : Bool :=
  w &&& r.mask == r.pattern

/-- The opcode map of spec/30_encoding.md R73; the masks include every must-be-zero bit (R75). -/
def opcodeMap : List OpcodeRow :=
  [ ⟨.nop, 0x0000, 0xFFFF⟩,
    ⟨.rst, 0x1000, 0xFFFF⟩,
    ⟨.rdc, 0x2000, 0xFFE0⟩,
    ⟨.ldk, 0x3000, 0xF800⟩,
    ⟨.rdt, 0x4000, 0xF01F⟩,
    ⟨.start, 0x5000, 0xFFFE⟩,
    ⟨.letter, 0x6000, 0xFFE0⟩,
    ⟨.endMsg, 0x7000, 0xFFFF⟩,
    ⟨.comp, 0x8000, 0xFC00⟩ ]

/-- The row a word satisfies, if any (spec/30_encoding.md R73, R79). -/
def rowOf (w : CmdWord) : Option Opcode :=
  (opcodeMap.find? (·.accepts w)).map (·.op)

/-- `cmd[9:5]`, the field `A` (spec/30_encoding.md R70). -/
def fieldA (w : CmdWord) : BitVec 5 := w.extractLsb' 5 5

/-- `cmd[4:0]`, the field `B` (spec/30_encoding.md R70). -/
def fieldB (w : CmdWord) : BitVec 5 := w.extractLsb' 0 5

/-- `cmd[11:10]`, the field `SEL` (spec/30_encoding.md R70). -/
def fieldSel (w : CmdWord) : BitVec 2 := w.extractLsb' 10 2

/-- `cmd[15:12]`, the field `OP` (spec/30_encoding.md R70). -/
def fieldOp (w : CmdWord) : BitVec 4 := w.extractLsb' 12 4

/-- The command of a row with the operands of a word (spec/30_encoding.md R74). -/
def withOperands (op : Opcode) (w : CmdWord) : Instr :=
  match op with
  | .nop => .nop
  | .rst => .rst
  | .rdc => .rdc (fieldB w)
  | .ldk => .ldk (if w.getLsbD 10 then .tau else .sigma) (fieldA w) (fieldB w)
  | .rdt => .rdt (TableSel.ofCode (fieldSel w)) (fieldA w)
  | .start => .start (Direction.ofBit (w.getLsbD 0))
  | .letter => .letter (fieldB w)
  | .endMsg => .endMsg
  | .comp => .comp (fieldA w) (fieldB w)

/-- The decoder (spec/30_encoding.md R79): the command of the word, or none, which is `ILLEGAL`. -/
def decode (w : CmdWord) : Option Instr :=
  (rowOf w).map fun op => withOperands op w

/-- `{OP, SEL, A, B}` (spec/30_encoding.md R70). -/
def commandWord (op : BitVec 4) (sel : BitVec 2) (a b : BitVec 5) : CmdWord :=
  op ++ sel ++ a ++ b

/-- The encoder: opcode numbers and fields of spec/30_encoding.md R73, unused fields zero (R75). -/
def encode : Instr → CmdWord
  | .nop => commandWord 0 0 0 0
  | .rst => commandWord 1 0 0 0
  | .rdc c => commandWord 2 0 0 c
  | .ldk t i v => commandWord 3 t.code i v
  | .rdt s i => commandWord 4 s.code i 0
  | .start d => commandWord 5 0 0 (0#4 ++ BitVec.ofBool d.bit)
  | .letter x => commandWord 6 0 0 x
  | .endMsg => commandWord 7 0 0 0
  | .comp a b => commandWord 8 0 a b

/-- The decoder on an instruction numbered as spec/opcode_table.json numbers it: bit 0 of `w` is
`cmd[0]` (spec/00_scope.md R7). A number that needs more than 16 bits is no command word (log 10). -/
def decodeTableWord (nbits w : Nat) : Option Instr :=
  if w % 2 ^ nbits < 2 ^ 16 then decode (BitVec.ofNat 16 (w % 2 ^ nbits)) else none

end Sys2Proof
end

