-- ==== Sys2Proof/Config.lean ====
section
/-! DEFINITION. The implementation parameters of spec/00_scope.md rule R5, and the waiting times the
spec leaves open (constants with no body). -/

namespace Sys2Proof.Config

/-- `ALPHABET_SIZE` (R5): the number of letters. -/
def alphabetSize : Nat := 26

/-- `INDEX_BASE` (R5, D4): the code of the letter A. -/
def indexBase : Nat := 0

/-- `LETTER_W` (R5): bits of a letter code. -/
def letterWidth : Nat := 5

/-- `N_TABLES` (R5): SIGMA, TAU and their two inverse tables. -/
def tableCount : Nat := 4

/-- `CMD_W` (R5): bits of a command word. -/
def commandWidth : Nat := 16

/-- `RSP_W` (R5): bits of a response word. -/
def responseWidth : Nat := 16

/-- `N_OUTSTANDING` (R5): commands in flight. -/
def outstanding : Nat := 1

/-- The version of the command set `PCMD` (R1, R34). -/
def pcmdVersion : Nat := 1

/-- `LATENCY` (R5, R207, D28), left OPEN by the spec: the number of clock cycles from accepting a
command to offering its response, for the n-th waiting time drawn. Free: it has no body (log 7). -/
opaque latency : Nat → Nat

/-- Clock cycles for which `cmd_ready` stays 0 after a hard reset (R203: "a finite number of
cycles") or after a delivery (not stated), for the n-th waiting time drawn. Free: no body (log 7). -/
opaque readyDelay : Nat → Nat

end Sys2Proof.Config
end

