-- ==== Sys2Proof/Machine/State.lean ====
section
/-! DEFINITION. The state of one block instance (spec/10_state.md R20), its reset value (R36), and
the reasons a step of the model can stop. -/

namespace Sys2Proof.Machine

/-- The table space (spec/20_memory.md R50, R51): the four tables. Dense, 26 entries each, so equal
contents are equal data (log 4). -/
structure Memory where
  /-- `SIGMA` (spec/10_state.md R21): the forward table σ. -/
  sigma : Table
  /-- `TAU` (R22): the forward table τ. -/
  tau : Table
  /-- `SIGMA_INV` (R23): the inverse table of σ, possibly stale while `ARMED = 0`. -/
  sigmaInv : Table
  /-- `TAU_INV` (R24): the inverse table of τ, possibly stale while `ARMED = 0`. -/
  tauInv : Table
deriving DecidableEq, Repr

/-- A move of the host (spec/70_reset_and_hazards.md R208) that the block takes in one step. -/
inductive HostMove where
  /-- The host sends a command word and takes its response (R201, R202). -/
  | command (w : CmdWord)
  /-- The host asserts `rst` for at least one edge (R203). `abandoned` is the command in flight at
  that edge, if there is one: it gets no response and none of its effects survive. -/
  | hardReset (abandoned : Option CmdWord)
deriving DecidableEq, Repr

/-- The state: the nine fields of spec/10_state.md R20, then the model's own two, the transaction
level of the command and response channels (log 1). -/
structure State where
  /-- The four tables (R21 to R24). -/
  mem : Memory
  /-- `ARMED` (R25). -/
  armed : Bool
  /-- `DIR` (R26). -/
  dir : Direction
  /-- `PHASE` (R27): false is 0, the next letter is the first of a pair. -/
  phase : Bool
  /-- `HOLD` (R28): the plaintext first letter of the pair in progress. -/
  hold : Letter
  /-- `FAULT` (R29): the code of the first fault since reset, 0 for none. -/
  fault : BitVec 4
  /-- The model's own: the host's moves the block has not taken yet, oldest first (log 1). -/
  hostMoves : List HostMove
  /-- The model's own: the response words delivered so far, oldest first (log 1). -/
  responses : List RspWord
deriving DecidableEq, Repr

/-- Why a step of the model stops with a fault. The block's own faults are responses, not stops
(spec/60_exceptions.md R176). -/
inductive Fault where
  /-- Raised by LET when the pair it completes holds a code above 25, so that the block would form
  an index of an entry that does not exist (spec/20_memory.md R54). No state that meets INV1
  (spec/10_state.md R35) raises it. Safe (log 5). -/
  | noSuchEntry
deriving DecidableEq, Repr

/-- Why a step of the model refuses. -/
inductive Refusal where
  /-- An instruction without a meaning yet, by its mnemonic: raised by no arm, since every command
  has its meaning. Safe. -/
  | notModelled (mnemonic : String)
deriving DecidableEq, Repr

/-- What a command or a step answers. -/
abbrev Answer := Host.Outcome State Fault Refusal

/-- The identity permutation as a table: entry `i` holds `i` (spec/10_state.md R36). -/
def identityTable : Table :=
  Vector.ofFn fun i : Fin 26 => BitVec.ofNat 5 i.val

/-- The table space after reset: the identity in all four tables (spec/10_state.md R36). -/
def Memory.reset : Memory where
  sigma := identityTable
  tau := identityTable
  sigmaInv := identityTable
  tauInv := identityTable

/-- The state after reset (spec/10_state.md R36), with no host move waiting and nothing answered. -/
def State.reset : State where
  mem := Memory.reset
  armed := false
  dir := .encipher
  phase := false
  hold := 0
  fault := 0
  hostMoves := []
  responses := []

end Sys2Proof.Machine
end

