-- ==== Sys2Proof/Machine/Operands.lean ====
section
/-! DEFINITION. Operand values: the letter check, checked letters and their codes, the widening of a
5-bit code to response data, and the entries of a table (spec/30_encoding.md R74, spec/40_units.md R98). -/

namespace Sys2Proof

/-- The letter check of spec/40_units.md R98 (b): unsigned comparison of a 5-bit field with 25. -/
def Letter.isLetter (x : Letter) : Bool := decide (x.toNat ≤ 25)

/-- The letter of a code, if it is one (spec/00_scope.md R6). -/
def Letter.index? (x : Letter) : Option Index :=
  if h : x.toNat < 26 then some ⟨x.toNat, h⟩ else none

/-- The 5-bit code of a letter (spec/00_scope.md R6). -/
def Letter.ofIndex (i : Index) : Letter := BitVec.ofNat 5 i.val

/-- `zext_12` of a 5-bit code (spec/00_scope.md R7), as LET and RDT answer it (R80). -/
def Letter.toData (x : Letter) : Data := x.setWidth 12

namespace Machine

/-- `T[x]` (spec/00_scope.md R8): the image of letter `x`, entry `x` of the table. -/
def entry (T : Table) (x : Index) : Letter := T[x]

/-- The table whose entry `x` is `f x`. -/
def tableFrom (f : Index → Letter) : Table := Vector.ofFn f

end Machine

end Sys2Proof
end

