-- ==== Sys2Proof/Machine/Flags.lean ====
section
/-! DEFINITION. The error codes, and the three control registers, each computed from the fields it
shows (spec/10_state.md R32 to R34, spec/60_exceptions.md R170). -/

namespace Sys2Proof.Machine

/-- The causes of spec/60_exceptions.md R170. -/
inductive ErrorCode where
  /-- R171: LDK with an index or value above 25; START with a table that is no bijection. -/
  | invalidPermutation
  /-- R172: LET or COMP with a code above 25; RDT with an index above 25. -/
  | invalidLetter
  /-- R173: reserved, never raised. -/
  | lengthMismatch
  /-- R174: LET, END, COMP while not armed; COMP inside a pair; LDK while armed. -/
  | sequenceError
  /-- R175: an illegal word; RDC of a register above 2. -/
  | illegalCommand
deriving DecidableEq, Repr

/-- The number of a cause (spec/60_exceptions.md R170), as `STAT` and `FAULT` carry it. -/
def ErrorCode.code : ErrorCode → BitVec 4
  | .invalidPermutation => 1
  | .invalidLetter => 2
  | .lengthMismatch => 3
  | .sequenceError => 4
  | .illegalCommand => 5

/-- `STATUS = {0000, FAULT[3:0], 0, PHASE, DIR, ARMED}` (spec/10_state.md R32). -/
def statusRegister (s : State) : Data :=
  0#4 ++ s.fault ++ 0#1 ++ BitVec.ofBool s.phase ++ BitVec.ofBool s.dir.bit ++ BitVec.ofBool s.armed

/-- `HOLDR`: bits 4:0 are `HOLD`, bits 11:5 are 0 (spec/10_state.md R33). -/
def holdRegister (s : State) : Data := s.hold.toData

/-- `ID` (spec/10_state.md R34): the version, `LETTER_W` and `ALPHABET_SIZE`. -/
def idRegister : Data :=
  BitVec.ofNat 4 Config.pcmdVersion ++ BitVec.ofNat 3 Config.letterWidth ++ BitVec.ofNat 5 Config.alphabetSize

/-- The control register an index names (spec/10_state.md section 5): indices 3 to 31 do not exist. -/
def controlRegister? (c : BitVec 5) (s : State) : Option Data :=
  if c = 0 then some (statusRegister s)
  else if c = 1 then some (holdRegister s)
  else if c = 2 then some idRegister
  else none

/-- `DATA` of a failed START (spec/41_key_commands.md R112): `{bt, bs}`, bit 0 SIGMA, bit 1 TAU. -/
def startFaultData (sigmaBad tauBad : Bool) : Data :=
  (BitVec.ofBool tauBad ++ BitVec.ofBool sigmaBad).setWidth 12

/-- `DATA` of a successful END (spec/42_letter_commands.md R131): the parity bit. -/
def endData (phase : Bool) : Data := (BitVec.ofBool phase).setWidth 12

/-- A response word `{STAT, DATA}` (spec/30_encoding.md R71). -/
def responseWord (stat : BitVec 4) (data : Data) : RspWord := stat ++ data

/-- `rsp[15:12]`, the field `STAT` (R71). -/
def statOf (r : RspWord) : BitVec 4 := r.extractLsb' 12 4

/-- `rsp[11:0]`, the field `DATA` (R71). -/
def dataOf (r : RspWord) : Data := r.extractLsb' 0 12

end Sys2Proof.Machine
end

