-- ==== Sys2Proof/Machine/Units.lean ====
section
/-! DEFINITION. The three functional units and the two table functions of spec/40_units.md: pure
functions of their inputs, without state. -/

namespace Sys2Proof.Machine

/-- `TA(a, b, x)` (spec/40_units.md R90): the transposition `(a b)` applied to `x`. -/
def transposeLetter (a b x : Index) : Index :=
  if x = a then b else if x = b then a else x

/-- `PC(T, a, b)` (spec/40_units.md R91): the table `T ∘ (a b)`, transposition first. -/
def composeTable (T : Table) (a b : Index) : Table :=
  tableFrom fun x => entry T (transposeLetter a b x)

/-- `PCI(T, TI, a, b)` (spec/40_units.md R93): the inverse table that goes with `PC(T, a, b)`,
where `T` is the table before the composition. -/
def composeInverse (T TI : Table) (a b : Index) : Table :=
  tableFrom fun y =>
    if Letter.ofIndex y = entry T b then Letter.ofIndex a
    else if Letter.ofIndex y = entry T a then Letter.ofIndex b
    else entry TI y

/-- Every entry of a table is a letter code (spec/10_state.md R35, INV1, for one table). -/
def tableInRange (T : Table) : Bool :=
  decide (∀ i : Index, Letter.isLetter (entry T i) = true)

/-- `VALID(T)` (spec/40_units.md R95): the entries are pairwise distinct letter codes, so `T` is a
bijection of 0 to 25. R95 is stated for tables whose entries are all letters; for any other table
the answer is false (log 6). -/
def validTable (T : Table) : Bool :=
  tableInRange T && decide (∀ i j : Index, i ≠ j → entry T i ≠ entry T j)

/-- `INVERT(T)` (spec/40_units.md R96): entry `y` is the `i` with `T[i] = y`. It is applied to valid
tables only. -/
def invertTable (T : Table) : Table :=
  tableFrom fun y => BitVec.ofNat 5 (T.toList.idxOf (Letter.ofIndex y))

end Sys2Proof.Machine
end

