-- ==== Sys2Proof/Machine/Ops.lean ====
section
/-! DEFINITION. The named operations of the block: table space access, EVOLVE, the response, taking
a fault, the state changes of the message state machine, reset, and the host channel. -/

namespace Sys2Proof.Machine

/-! ### The table space (spec/20_memory.md) -/

/-- The table a select names (spec/20_memory.md R51). -/
def Memory.table (m : Memory) : TableSel → Table
  | .sigma => m.sigma
  | .tau => m.tau
  | .sigmaInv => m.sigmaInv
  | .tauInv => m.tauInv

/-- Replace one table (spec/20_memory.md R51). -/
def Memory.setTable (m : Memory) (T : Table) : TableSel → Memory
  | .sigma => { m with sigma := T }
  | .tau => { m with tau := T }
  | .sigmaInv => { m with sigmaInv := T }
  | .tauInv => { m with tauInv := T }

/-- `TabRead(s, i)` (spec/20_memory.md R52), for a checked index. -/
def tabRead (m : Memory) (s : TableSel) (i : Index) : Letter :=
  entry (m.table s) i

/-- `TabWrite(s, i, v)` (spec/20_memory.md R53), for a checked index; it changes nothing else. -/
def tabWrite (m : Memory) (s : TableSel) (i : Index) (v : Letter) : Memory :=
  m.setTable ((m.table s).set i.val v i.isLt) s

/-- The form of the table space (spec/10_state.md R35, INV1): every entry is a letter code. -/
def Memory.wf (m : Memory) : Bool :=
  tableInRange m.sigma && tableInRange m.tau && tableInRange m.sigmaInv && tableInRange m.tauInv

/-- `EVOLVE(a, b)` on the table space (spec/40_units.md R94): all four tables at once, every
right-hand side read before any write. -/
def Memory.evolve (m : Memory) (a b : Index) : Memory where
  sigmaInv := composeInverse m.sigma m.sigmaInv a b
  tauInv := composeInverse m.tau m.tauInv a b
  sigma := composeTable m.sigma a b
  tau := composeTable m.tau a b

/-- START's two writes (spec/41_key_commands.md R112): both inverse tables from the forward ones. -/
def Memory.writeInverses (m : Memory) : Memory :=
  { m with sigmaInv := invertTable m.sigma, tauInv := invertTable m.tau }

/-! ### Response and fault entry -/

/-- Deliver one response word (spec/30_encoding.md R71): the last state change of every command. -/
def State.respond (r : RspWord) (s : State) : State :=
  { s with responses := s.responses ++ [r] }

/-- `ok(d)` (spec/00_scope.md R9): end the command with `STAT = 0`. -/
def State.answerOk (d : Data) (s : State) : State :=
  s.respond (responseWord 0 d)

/-- Clear `ARMED`, `PHASE` and `HOLD` together: what END (R131) and every fault (R176) do. -/
def State.disarm (s : State) : State :=
  { s with armed := false, phase := false, hold := 0 }

/-- The sticky first-fault latch (spec/10_state.md R29): written only while it is 0. -/
def State.latchFault (c : ErrorCode) (s : State) : State :=
  { s with fault := if s.fault = 0 then c.code else s.fault }

/-- `fault(c, d)` (spec/60_exceptions.md R176): TAKING A FAULT, the one way a command fails. There
is no return from it (R180): nothing is saved and control goes nowhere. -/
def State.takeFault (c : ErrorCode) (d : Data) (s : State) : State :=
  (s.latchFault c).disarm.respond (responseWord c.code d)

/-! ### State changes of single commands -/

/-- The table space becomes `m`; nothing else changes. -/
def State.withMem (m : Memory) (s : State) : State :=
  { s with mem := m }

/-- EVOLVE on the state (spec/40_units.md R94): "It writes nothing else". -/
def State.evolve (a b : Index) (s : State) : State :=
  s.withMem (s.mem.evolve a b)

/-- START's flags (spec/41_key_commands.md R112). -/
def State.openMessage (d : Direction) (s : State) : State :=
  { s with armed := true, dir := d, phase := false, hold := 0 }

/-- LET at `PHASE = 0` (spec/42_letter_commands.md R130): keep the plaintext letter. -/
def State.holdFirst (p : Letter) (s : State) : State :=
  { s with hold := p, phase := true }

/-- LET at `PHASE = 1` (spec/42_letter_commands.md R130): the pair is complete. -/
def State.closePair (s : State) : State :=
  { s with hold := 0, phase := false }

/-- Every piece of architectural state takes its reset value (spec/10_state.md R36): RST (R161) and
hard reset (spec/70_reset_and_hazards.md R203). The host channel is not architectural state. -/
def State.resetBlock (s : State) : State :=
  { State.reset with hostMoves := s.hostMoves, responses := s.responses }

/-! ### The host channel -/

/-- Take the host's next move, if it has made one (spec/70_reset_and_hazards.md R202: in order, one
at a time). -/
def State.takeMove (s : State) : Option (HostMove × State) :=
  match s.hostMoves with
  | [] => none
  | move :: rest => some (move, { s with hostMoves := rest })

/-- The host's next move is to send the word `w`. -/
def State.offerCommand (w : CmdWord) (s : State) : State :=
  { s with hostMoves := .command w :: s.hostMoves }

end Sys2Proof.Machine
end

