-- ==== Sys2Proof/Machine/KeyCommands.lean ====
section
/-! DEFINITION. The meanings of LDK, RDT and START (spec/41_key_commands.md). -/

namespace Sys2Proof.Machine

/-- `LDK t, i, v` (R110). The first check is for a term no word encodes, LDK of an inverse table,
which "is IllegalCommand" (spec/20_memory.md R51; log 11). -/
def execLdk (t : TableSel) (i v : Letter) (s : State) : Answer :=
  if !t.isForward then .next (s.takeFault .illegalCommand 0)
  else if s.armed then .next (s.takeFault .sequenceError 0)
  else
    match Letter.index? i, Letter.isLetter v with
    | some k, true => .next ((s.withMem (tabWrite s.mem t k v)).answerOk 0)
    | _, _ => .next (s.takeFault .invalidPermutation 0)

/-- `RDT s, i` (R111): legal in every state; what is stored is answered. -/
def execRdt (t : TableSel) (i : Letter) (s : State) : Answer :=
  match Letter.index? i with
  | none => .next (s.takeFault .invalidLetter 0)
  | some k => .next (s.answerOk (Letter.toData (tabRead s.mem t k)))

/-- `START d` (R112): both forward tables are always checked; then both inverse tables are written
and the message is open. -/
def execStart (d : Direction) (s : State) : Answer :=
  if !validTable s.mem.sigma || !validTable s.mem.tau then
    .next (s.takeFault .invalidPermutation (startFaultData (!validTable s.mem.sigma) (!validTable s.mem.tau)))
  else .next (((s.withMem s.mem.writeInverses).openMessage d).answerOk 0)

end Sys2Proof.Machine
end

