-- ==== Sys2Proof/Machine/LetterCommands.lean ====
section
/-! DEFINITION. The meanings of LET, END and COMP (spec/42_letter_commands.md). -/

namespace Sys2Proof.Machine

/-- The table a letter goes through (R130): σ for the first letter of a pair, τ for the second, and
their inverses when deciphering. -/
def letterTable (dir : Direction) (phase : Bool) : TableSel :=
  match dir, phase with
  | .encipher, false => .sigma
  | .encipher, true => .tau
  | .decipher, false => .sigmaInv
  | .decipher, true => .tauInv

/-- `out` of R130, from the tables as they are before EVOLVE. -/
def letterOut (x : Index) (s : State) : Letter :=
  tabRead s.mem (letterTable s.dir s.phase) x

/-- `p` of R130: always the plaintext letter of this position, whichever the direction. -/
def plainLetter (x : Index) (s : State) : Letter :=
  match s.dir with
  | .encipher => Letter.ofIndex x
  | .decipher => letterOut x s

/-- LET at `PHASE = 0` (R130). -/
def letterFirst (x : Index) (s : State) : State :=
  (s.holdFirst (plainLetter x s)).answerOk (Letter.toData (letterOut x s))

/-- LET at `PHASE = 1` (R130), `h` and `p` being the plaintext pair. -/
def letterSecond (x h p : Index) (s : State) : State :=
  (s.evolve h p).closePair.answerOk (Letter.toData (letterOut x s))

/-- `LET x` (R130): state check, operand check, then the first or the second letter of a pair. A
plaintext pair that holds a code above 25 would make EVOLVE name entries that do not exist
(spec/20_memory.md R54): INV1 rules it out, and the model stops (log 5). -/
def execLetter (x : Letter) (s : State) : Answer :=
  if !s.armed then .next (s.takeFault .sequenceError 0)
  else
    match Letter.index? x with
    | none => .next (s.takeFault .invalidLetter 0)
    | some k =>
      if !s.phase then .next (letterFirst k s)
      else
        match Letter.index? s.hold, Letter.index? (plainLetter k s) with
        | some h, some p => .next (letterSecond k h p s)
        | _, _ => .fault .noSuchEntry

/-- `END` (R131): close the message and answer its parity; the tables and `DIR` stay. -/
def execEndMsg (s : State) : Answer :=
  if !s.armed then .next (s.takeFault .sequenceError 0)
  else .next (s.disarm.answerOk (endData s.phase))

/-- `COMP a, b` (R132): EVOLVE alone, between pairs. -/
def execComp (a b : Letter) (s : State) : Answer :=
  if !s.armed || s.phase then .next (s.takeFault .sequenceError 0)
  else
    match Letter.index? a, Letter.index? b with
    | some i, some j => .next ((s.evolve i j).answerOk 0)
    | _, _ => .next (s.takeFault .invalidLetter 0)

end Sys2Proof.Machine
end

