-- ==== Sys2Proof/Machine/SystemCommands.lean ====
section
/-! DEFINITION. The meanings of NOP, RST, RDC (spec/43_system_commands.md) and of an illegal word
(spec/30_encoding.md R76). -/

namespace Sys2Proof.Machine

/-- `NOP` (R160): do nothing, answer 0. -/
def execNop (s : State) : Answer :=
  .next (s.answerOk 0)

/-- `RST` (R161): soft reset, "exactly as hard reset does", but answered. -/
def execRst (s : State) : Answer :=
  .next (s.resetBlock.answerOk 0)

/-- `RDC c` (R162): read a control register; no such register is IllegalCommand (R77). -/
def execRdc (c : BitVec 5) (s : State) : Answer :=
  match controlRegister? c s with
  | none => .next (s.takeFault .illegalCommand 0)
  | some d => .next (s.answerOk d)

/-- An illegal word (spec/30_encoding.md R76): `fault(5)` and nothing else. -/
def execIllegal (s : State) : Answer :=
  .next (s.takeFault .illegalCommand 0)

end Sys2Proof.Machine
end

