-- ==== Sys2Proof/Machine/Dispatch.lean ====
section
/-! DEFINITION. The meaning of every command: one arm per row of spec/opcode_table.json. -/

namespace Sys2Proof.Machine

def exec (i : Instr) (s : State) : Host.Outcome State Fault Refusal :=
  match i with
  | .nop => Sys2Proof.Machine.execNop s
  | .rst => Sys2Proof.Machine.execRst s
  | .rdc c => Sys2Proof.Machine.execRdc c s
  | .ldk t k v => Sys2Proof.Machine.execLdk t k v s
  | .rdt t k => Sys2Proof.Machine.execRdt t k s
  | .start d => Sys2Proof.Machine.execStart d s
  | .letter x => Sys2Proof.Machine.execLetter x s
  | .endMsg => Sys2Proof.Machine.execEndMsg s
  | .comp a b => Sys2Proof.Machine.execComp a b s

end Sys2Proof.Machine
end

