-- ==== Sys2Proof/Machine/Step.lean ====
section
/-! DEFINITION. One step: the block takes the host's next move. It has no program counter and
fetches nothing (spec/10_state.md R31); the host's channel delivers the words in order (R10). -/

namespace Sys2Proof.Machine

/-- The block executes one command word (spec/00_scope.md R10): the decoded command, or the fault
of an illegal word. -/
def runWord (w : CmdWord) (s : State) : Answer :=
  match decode w with
  | some i => exec i s
  | none => execIllegal s

/-- One step. With no host move waiting the block "is simply idle and keeps all its state"
(spec/60_exceptions.md R183; log 2). -/
def step (s : State) : Host.Outcome State Fault Refusal :=
  match s.takeMove with
  | none => .next s
  | some (.command w, s') => runWord w s'
  | some (.hardReset _, s') => .next s'.resetBlock

/-- `s` with the host sending the table word `w` next, ahead of its other moves (log 2). -/
def State.withFetchWord (s : State) (nbits w : Nat) : State :=
  s.offerCommand (BitVec.ofNat 16 (w % 2 ^ nbits))

end Sys2Proof.Machine
end

