-- ==== Sys2Proof/Machine/Assembler.lean ====
section
/-! DEFINITION. The assembler syntax and the pseudo-commands of spec/30_encoding.md R81 and R82. A line is a
list of characters; what R81 leaves open (spacing, leading zeros) is log 13. -/

namespace Sys2Proof.Machine

/-- The letters of the alphabet in order (spec/00_scope.md R6; log 12). -/
def alphabet : List Char :=
  ['A', 'B', 'C', 'D', 'E', 'F', 'G', 'H', 'I', 'J', 'K', 'L', 'M',
   'N', 'O', 'P', 'Q', 'R', 'S', 'T', 'U', 'V', 'W', 'X', 'Y', 'Z']

/-- The letter a character stands for (spec/00_scope.md R6). -/
def letterOfChar? (c : Char) : Option Index :=
  if h : alphabet.idxOf c < 26 then some ⟨alphabet.idxOf c, h⟩ else none

/-- The single quote of a letter operand (R81). -/
def singleQuote : Char := Char.ofNat 39

/-- The double quote of a string operand (R82). -/
def doubleQuote : Char := Char.ofNat 34

/-- The start of a comment (R81). -/
def semicolon : Char := Char.ofNat 59

/-- The value of a decimal digit. -/
def digitOf? (c : Char) : Option Nat :=
  if 48 ≤ c.toNat ∧ c.toNat ≤ 57 then some (c.toNat - 48) else none

/-- The number a list of decimal digits adds to `acc`. -/
def digitsFrom? (acc : Nat) : List Char → Option Nat
  | [] => some acc
  | c :: cs => (digitOf? c).bind fun d => digitsFrom? (acc * 10 + d) cs

/-- A decimal number, at least one digit. -/
def number? : List Char → Option Nat
  | [] => none
  | c :: cs => digitsFrom? 0 (c :: cs)

/-- A number that fits a 5-bit field (R81: "a decimal number 0 to 31"). -/
def fiveBits? (n : Option Nat) : Option (BitVec 5) :=
  n.bind fun k => if k ≤ 31 then some (BitVec.ofNat 5 k) else none

/-- A letter or index operand (R81): a letter in single quotes, or a decimal number 0 to 31. -/
def letterOperand? (s : List Char) : Option Letter :=
  match s with
  | [q, c, q'] =>
    if q = singleQuote ∧ q' = singleQuote then (letterOfChar? c).map Letter.ofIndex
    else fiveBits? (number? s)
  | _ => fiveBits? (number? s)

/-- A table select operand (R81): a table's name or a decimal number. -/
def tableOperand? (s : List Char) : Option TableSel :=
  if s = "SIGMA".toList then some .sigma
  else if s = "TAU".toList then some .tau
  else if s = "SIGMA_INV".toList then some .sigmaInv
  else if s = "TAU_INV".toList then some .tauInv
  else (number? s).bind fun n => if n ≤ 3 then some (TableSel.ofCode (BitVec.ofNat 2 n)) else none

/-- The table operand of LDK: a forward table, since no word encodes another (R72). -/
def keyTableOperand? (s : List Char) : Option TableSel :=
  (tableOperand? s).bind fun t => if t.isForward then some t else none

/-- A direction operand (R81): `ENC` or `DEC`. -/
def directionOperand? (s : List Char) : Option Direction :=
  if s = "ENC".toList then some .encipher
  else if s = "DEC".toList then some .decipher
  else none

/-- A control register operand (R81): a register's name or a decimal number 0 to 31. -/
def registerOperand? (s : List Char) : Option (BitVec 5) :=
  if s = "STATUS".toList then some 0
  else if s = "HOLDR".toList then some 1
  else if s = "ID".toList then some 2
  else fiveBits? (number? s)

/-- The letters of a string body, all of them letters of the alphabet. -/
def lettersOf? : List Char → Option (List Index)
  | [] => some []
  | c :: cs => (letterOfChar? c).bind fun x => (lettersOf? cs).map (x :: ·)

/-- A string operand (R82): letters between double quotes, possibly none. -/
def stringOperand? (s : List Char) : Option (List Index) :=
  match s with
  | q :: rest =>
    if q = doubleQuote ∧ rest.getLast? = some doubleQuote then lettersOf? rest.dropLast else none
  | [] => none

/-- `KEY t, "c0c1...c25"` (R82): one LDK per entry, in index order. -/
def keyLoad (t : TableSel) (key : Table) : List Instr :=
  (List.finRange 26).map fun i => .ldk t (Letter.ofIndex i) (entry key i)

/-- `DUMP s` (R82): one RDT per entry, in index order. -/
def tableDump (s : TableSel) : List Instr :=
  (List.finRange 26).map fun i => .rdt s (Letter.ofIndex i)

/-- `MSG "..."` (R82): one LET per letter, in string order. -/
def letterSequence (m : List Index) : List Instr :=
  m.map fun x => .letter (Letter.ofIndex x)

/-- The KEY of a string of letters: exactly 26 of them (R82). -/
def keyOfLetters? (t : TableSel) (m : List Index) : Option (List Instr) :=
  if m.length = 26 then
    some (keyLoad t (tableFrom fun i => ((m[i.val]?).map Letter.ofIndex).getD 0))
  else none

/-- The commands of a mnemonic with its operands (R81, R82): one command, or a pseudo-command's
expansion. -/
def assemble? (mnemonic : List Char) (operands : List (List Char)) : Option (List Instr) :=
  match operands with
  | [] =>
    if mnemonic = "NOP".toList then some [.nop]
    else if mnemonic = "RST".toList then some [.rst]
    else if mnemonic = "END".toList then some [.endMsg]
    else if mnemonic = "SENC".toList then some [.start .encipher]
    else if mnemonic = "SDEC".toList then some [.start .decipher]
    else if mnemonic = "RDS".toList then some [.rdc 0]
    else none
  | [a] =>
    if mnemonic = "RDC".toList then (registerOperand? a).map fun c => [.rdc c]
    else if mnemonic = "START".toList then (directionOperand? a).map fun d => [.start d]
    else if mnemonic = "LET".toList then (letterOperand? a).map fun x => [.letter x]
    else if mnemonic = "MSG".toList then (stringOperand? a).map letterSequence
    else if mnemonic = "DUMP".toList then (tableOperand? a).map tableDump
    else none
  | [a, b] =>
    if mnemonic = "RDT".toList then
      (tableOperand? a).bind fun s => (letterOperand? b).map fun i => [.rdt s i]
    else if mnemonic = "COMP".toList then
      (letterOperand? a).bind fun x => (letterOperand? b).map fun y => [.comp x y]
    else if mnemonic = "LDS".toList then
      (letterOperand? a).bind fun i => (letterOperand? b).map fun v => [.ldk .sigma i v]
    else if mnemonic = "LDT".toList then
      (letterOperand? a).bind fun i => (letterOperand? b).map fun v => [.ldk .tau i v]
    else if mnemonic = "KEY".toList then
      (keyTableOperand? a).bind fun t => (stringOperand? b).bind (keyOfLetters? t)
    else none
  | [a, b, c] =>
    if mnemonic = "LDK".toList then
      (keyTableOperand? a).bind fun t =>
        (letterOperand? b).bind fun i => (letterOperand? c).map fun v => [.ldk t i v]
    else none
  | _ => none

/-- Drop spaces at the front. -/
def dropSpaces (s : List Char) : List Char := s.dropWhile (· = ' ')

/-- Drop spaces at both ends. -/
def trimSpaces (s : List Char) : List Char := (dropSpaces (dropSpaces s).reverse).reverse

/-- The pieces of a list of characters between commas; `[]` has none. -/
def splitCommas (s : List Char) : List (List Char) :=
  match s with
  | [] => []
  | _ => s.foldr (fun c acc => match acc with
      | [] => if c = ',' then [[], []] else [[c]]
      | p :: ps => if c = ',' then [] :: p :: ps else (c :: p) :: ps) []

/-- One line of assembler text (R81): a mnemonic, then operands separated by commas, then an
optional comment after `;`. A line without a mnemonic gives no command. -/
def assembleLine? (line : List Char) : Option (List Instr) :=
  let text := trimSpaces (line.takeWhile (· ≠ semicolon))
  match text with
  | [] => some []
  | _ =>
    assemble? (text.takeWhile (· ≠ ' '))
      ((splitCommas (dropSpaces (text.dropWhile (· ≠ ' ')))).map trimSpaces)

/-- The words of one line (R81: "The assembler emits the word of rule R70"). -/
def assembleWords? (line : List Char) : Option (List CmdWord) :=
  (assembleLine? line).map (·.map encode)

/-- The words of a text (R81: "One command per line"), none if any line is not a command. -/
def assembleText? : List (List Char) → Option (List CmdWord)
  | [] => some []
  | line :: lines =>
    (assembleWords? line).bind fun ws => (assembleText? lines).map (ws ++ ·)

/-- A hexadecimal digit as R7 and R81 write it, `0` to `F`. -/
def hexDigit (d : BitVec 4) : Char :=
  if d.toNat ≤ 9 then Char.ofNat (48 + d.toNat) else Char.ofNat (55 + d.toNat)

/-- Whether the response of a command carries a letter: a success of LET or RDT (R80). -/
def carriesLetter (i : Instr) (r : RspWord) : Bool :=
  match i with
  | .letter _ => r.extractLsb' 12 4 == 0
  | .rdt _ _ => r.extractLsb' 12 4 == 0
  | .nop => false
  | .rst => false
  | .rdc _ => false
  | .ldk _ _ _ => false
  | .start _ => false
  | .endMsg => false
  | .comp _ _ => false

/-- How R81 writes the response of a command: "its hex word, and where it carries a letter, the
letter after it". -/
def responseText (i : Instr) (r : RspWord) : List Char :=
  ['0', 'x', hexDigit (r.extractLsb' 12 4), hexDigit (r.extractLsb' 8 4), hexDigit (r.extractLsb' 4 4),
    hexDigit (r.extractLsb' 0 4)] ++
  if carriesLetter i r then
    match alphabet[(r.extractLsb' 0 5).toNat]? with
    | some c => [' ', '(', c, ')']
    | none => []
  else []

end Sys2Proof.Machine
end

