-- ==== Sys2Proof/Machine/Cipher.lean ====
section
/-! DEFINITION. The message-level operations of spec/42_letter_commands.md as mathematics: Encipher
(R133) and Decipher (R134) on permutations of the 26 letters, independent of the block's tables. -/

namespace Sys2Proof.Machine

/-- A permutation of the alphabet (spec/00_scope.md R8): "a bijective mapping from the alphabet onto
itself". -/
abbrev Permutation := Equiv.Perm Index

/-- `σ ∘ (a b)`, "apply the transposition first, then the previous permutation"
(spec/40_units.md R91). -/
def advance (σ : Permutation) (a b : Index) : Permutation := (Equiv.swap a b).trans σ

/-- `Enc(σ, τ, m)` (spec/42_letter_commands.md R133). -/
def encipher (σ τ : Permutation) : List Index → List Index
  | [] => []
  | [a] => [σ a]
  | a :: b :: rest => σ a :: τ b :: encipher (advance σ a b) (advance τ a b) rest

/-- `Dec(σ, τ, c)` (spec/42_letter_commands.md R134). -/
def decipher (σ τ : Permutation) : List Index → List Index
  | [] => []
  | [y] => [σ.symm y]
  | y :: z :: rest =>
    σ.symm y :: τ.symm z ::
      decipher (advance σ (σ.symm y) (τ.symm z)) (advance τ (σ.symm y) (τ.symm z)) rest

/-- `σₙ` after a plaintext (spec/42_letter_commands.md R133, R135): one advance per complete pair,
none for a trailing letter. -/
def evolved (σ : Permutation) : List Index → Permutation
  | [] => σ
  | [_] => σ
  | a :: b :: rest => evolved (advance σ a b) rest

/-- The table of a permutation in canonical form (spec/00_scope.md R8): "position = domain value,
entry = image". -/
def tableOf (σ : Permutation) : Table :=
  tableFrom fun x => Letter.ofIndex (σ x)

end Sys2Proof.Machine
end

