-- ==== Sys2Proof/Machine/Instances.lean ====
section
/-! DEFINITION. Several blocks side by side (spec/60_exceptions.md R184): they share nothing, so one
step of the system is one step of one of them. -/

namespace Sys2Proof.Machine

/-- Any number of block instances (R184), each with its own state. -/
abbrev Instances := List State

/-- Block `k` takes one step; where the model stops, or there is no block `k`, nothing changes. -/
def stepInstance (k : Nat) (blocks : Instances) : Instances :=
  blocks.modify k fun s =>
    match step s with
    | .next t => t
    | .fault _ => s
    | .refused _ => s

end Sys2Proof.Machine
end

