-- ==== Sys2Proof/Machine/Ports.lean ====
section
/-! DEFINITION. The block at its ports (spec/70_reset_and_hazards.md R200 to R203, R207): one rising
edge of `clk` at a time, around the transaction model. -/

namespace Sys2Proof.Machine

/-- The inputs sampled at one rising edge of `clk` (R200). -/
structure Pins where
  /-- `rst`, hard reset, active high, synchronous. -/
  rst : Bool
  /-- `cmd_valid`: the host offers a command word. -/
  cmdValid : Bool
  /-- `cmd_data`: the command word. -/
  cmdData : CmdWord
  /-- `rsp_ready`: the host can take a response word. -/
  rspReady : Bool
deriving DecidableEq, Repr

/-- Where the handshake stands between two edges (R201, R202). -/
inductive Link where
  /-- `cmd_ready` rises after `left` more edges (after a hard reset, R203, or a delivery; log 7). -/
  | resting (left : Nat)
  /-- `cmd_ready = 1`: a command can be accepted; it stays so until one is (log 18). -/
  | ready
  /-- The command `w` is in flight; `rsp_valid` rises at the edge after `left` more edges. -/
  | busy (w : CmdWord) (left : Nat)
  /-- `rsp_valid = 1`: the response `r` is offered. -/
  | offering (r : RspWord)
deriving DecidableEq, Repr

/-- The block at its ports. -/
structure Ports where
  /-- The architectural state, and in `responses` the words delivered so far. -/
  block : State
  /-- The handshake. -/
  link : Link
  /-- The model's own: how many waiting times have been drawn (log 7). -/
  uses : Nat
deriving DecidableEq, Repr

/-- What an edge answers. -/
abbrev PortAnswer := Host.Outcome Ports Fault Refusal

/-- The output `cmd_ready` (R200); by its type it "does not depend on `cmd_valid`" (R201). -/
def Ports.cmdReady (p : Ports) : Bool :=
  match p.link with
  | .ready => true
  | _ => false

/-- The output `rsp_valid` (R200); by its type it "does not depend on `rsp_ready`" (R201). -/
def Ports.rspValid (p : Ports) : Bool :=
  match p.link with
  | .offering _ => true
  | _ => false

/-- The output `rsp_data` (R200), while `rsp_valid = 1`; else no value (log 9). -/
def Ports.rspData? (p : Ports) : Option RspWord :=
  match p.link with
  | .offering r => some r
  | _ => none

/-- `cmd_ready` stays 0 for a finite number of edges (log 7). -/
def restingFor : Nat → Link
  | 0 => .ready
  | n + 1 => .resting n

/-- The last response of a state: that of the command just executed. -/
def lastResponse (s : State) : RspWord := s.responses.getLast?.getD 0

/-- The command in flight takes effect and its response is offered (R202; log 8). The response is
not delivered yet, so `responses` does not hold it. -/
def Ports.complete (w : CmdWord) (p : Ports) : PortAnswer :=
  match runWord w p.block with
  | .next t => .next { p with block := { t with responses := p.block.responses }, link := .offering (lastResponse t) }
  | .fault r => .fault r
  | .refused r => .refused r

/-- A command is accepted (R201): its response comes after `LATENCY` edges, which may be 0 (R207). -/
def Ports.accept (w : CmdWord) (p : Ports) : PortAnswer :=
  match Config.latency p.uses with
  | 0 => Ports.complete w { p with uses := p.uses + 1 }
  | n + 1 => .next { p with link := .busy w n, uses := p.uses + 1 }

/-- A response is delivered (R201). -/
def Ports.deliver (r : RspWord) (p : Ports) : Ports :=
  { block := p.block.respond r, link := restingFor (Config.readyDelay p.uses), uses := p.uses + 1 }

/-- Hard reset at an edge with `rst = 1` (R203): reset state, `cmd_ready` and `rsp_valid` 0, the
command in flight abandoned. -/
def Ports.hardReset (p : Ports) : Ports :=
  { block := p.block.resetBlock, link := .resting (Config.readyDelay p.uses), uses := p.uses + 1 }

/-- One rising edge of `clk` (R200 to R203). Once 1, `cmd_ready` stays 1 until a command is accepted or
a hard reset comes: DESIGN CHOICE (log 18), since R201 states persistence for `cmd_valid` and
`rsp_valid` only. -/
def edge (pins : Pins) (p : Ports) : PortAnswer :=
  if pins.rst then .next p.hardReset
  else
    match p.link with
    | .resting n => .next { p with link := restingFor n }
    | .ready => if pins.cmdValid then p.accept pins.cmdData else .next p
    | .busy w 0 => p.complete w
    | .busy w (n + 1) => .next { p with link := .busy w n }
    | .offering r => if pins.rspReady then .next (p.deliver r) else .next p

/-- A finite sequence of rising edges. -/
def runEdges : List Pins → Ports → PortAnswer
  | [], p => .next p
  | e :: es, p =>
    match edge e p with
    | .next q => runEdges es q
    | .fault r => .fault r
    | .refused r => .refused r

/-- The host's duty at the command channel (R201): an offer at the edge `e` that is not accepted there
stands unchanged at the next edge `e'`. -/
def Ports.offerStands (p : Ports) (e e' : Pins) : Bool :=
  !e.cmdValid || (!e.rst && p.cmdReady) || (e'.cmdValid && e'.cmdData == e.cmdData)

/-- A host that keeps that duty all along (R201, R208). The other statements about the ports hold
for any host (log 16). -/
def hostKeepsOffers : List Pins → Ports → Prop
  | [], _ => True
  | [_], _ => True
  | e :: e' :: es, p =>
    p.offerStands e e' = true ∧
      match edge e p with
      | .next q => hostKeepsOffers (e' :: es) q
      | .fault _ => True
      | .refused _ => True

end Sys2Proof.Machine
end

