-- ==== Sys2Proof/Machine/Run.lean ====
section
/-! DEFINITION. Runs: a finite list of command words from a stated start state
(spec/70_reset_and_hazards.md R209). -/

namespace Sys2Proof.Machine

/-- Execute the words in order, stopping where the model stops; the result is the state after the
last response, whose `responses` end with the responses of the run (R209). -/
def runCommands : List CmdWord → State → Answer
  | [], s => .next s
  | w :: ws, s =>
    match runWord w s with
    | .next t => runCommands ws t
    | .fault r => .fault r
    | .refused r => .refused r

/-- The state after `k` steps of the block, stopping where the model stops. -/
def runSteps : Nat → State → Answer
  | 0, s => .next s
  | k + 1, s =>
    match step s with
    | .next t => runSteps k t
    | .fault r => .fault r
    | .refused r => .refused r

/-- The words of one message: START, one LET per letter in order, END (R205, R82 `MSG`). -/
def messageWords (d : Direction) (letters : List Index) : List CmdWord :=
  encode (.start d) :: letters.map (fun x => encode (.letter (Letter.ofIndex x))) ++ [encode .endMsg]

end Sys2Proof.Machine
end

