-- ==== Sys2Proof/Safety.lean ====
section
/-! DEFINITION. What a good state and a safe run are: the four invariants of spec/10_state.md R35, and
the message state machine of spec/42_letter_commands.md R142. -/

namespace Sys2Proof.Machine

/-- `TI[T[x]] = x` for every `x` in 0 to 25 (spec/00_scope.md R8: "if σ(x) = y then σ⁻¹(y) = x"). -/
abbrev IsInverse (T TI : Table) : Prop :=
  ∀ x : Index, ∀ y : Index, entry T x = Letter.ofIndex y → entry TI y = Letter.ofIndex x

/-- INV1, range (R35): every table entry and `HOLD` are in 0 to 25, and `FAULT` is in 0 to 5. -/
abbrev State.InRange (s : State) : Prop :=
  s.mem.wf = true ∧ Letter.isLetter s.hold = true ∧ s.fault.toNat ≤ 5

/-- INV2, armed means valid (R35). -/
abbrev State.ArmedIsValid (s : State) : Prop :=
  s.armed = true →
    validTable s.mem.sigma = true ∧ validTable s.mem.tau = true ∧
      IsInverse s.mem.sigma s.mem.sigmaInv ∧ IsInverse s.mem.tau s.mem.tauInv

/-- INV3, idle is clean (R35). -/
abbrev State.IdleIsClean (s : State) : Prop :=
  (s.armed = false → s.phase = false) ∧ (s.phase = false → s.hold = 0)

/-- INV4, the inverse tables are permutations (R35), armed or not. -/
abbrev State.InversesAreValid (s : State) : Prop :=
  validTable s.mem.sigmaInv = true ∧ validTable s.mem.tauInv = true

/-- The four invariants of spec/10_state.md R35. -/
abbrev State.Inv (s : State) : Prop :=
  s.InRange ∧ s.ArmedIsValid ∧ s.IdleIsClean ∧ s.InversesAreValid

/-- The states of the message state machine (spec/42_letter_commands.md R142). -/
inductive MessageState where
  /-- `(ARMED, PHASE) = (0, 0)`. -/
  | idle
  /-- `(1, 0)`: the next letter is the first of a pair. -/
  | first
  /-- `(1, 1)`: the next letter is the second of a pair. -/
  | second
  /-- `(0, 1)`: unreachable (INV3). -/
  | unreachable
deriving DecidableEq, Repr

/-- Where a state is in the message state machine (R142). -/
def State.messageState (s : State) : MessageState :=
  match s.armed, s.phase with
  | false, false => .idle
  | true, false => .first
  | true, true => .second
  | false, true => .unreachable

/-- The transition of a command that succeeds (R142): the columns START ok, LET ok, END, COMP ok,
LDK ok, RDT ok, RDC, NOP and RST. Every fault, and hard reset, goes to `IDLE`. -/
def MessageState.after (m : MessageState) : Instr → MessageState
  | .start _ => .first
  | .letter _ => if m = .first then .second else .first
  | .endMsg => .idle
  | .rst => .idle
  | .comp _ _ => m
  | .ldk _ _ _ => m
  | .rdt _ _ => m
  | .rdc _ => m
  | .nop => m

/-- Whether a command can succeed in a state of the message state machine (R142): the entries of the
table that say "(faults)" cannot. -/
def MessageState.allows (m : MessageState) : Instr → Bool
  | .letter _ => m ≠ .idle
  | .endMsg => m ≠ .idle
  | .comp _ _ => m = .first
  | .ldk _ _ _ => m = .idle
  | .nop => true
  | .rst => true
  | .rdc _ => true
  | .rdt _ _ => true
  | .start _ => true

/-- A word that is no command, read off the fields (spec/30_encoding.md R75, R76): a reserved opcode,
or a nonzero bit in a field the command does not use. -/
def illegalWord (w : CmdWord) : Bool :=
  if fieldOp w = 0 ∨ fieldOp w = 1 ∨ fieldOp w = 7 then decide (w.extractLsb' 0 12 ≠ 0)
  else if fieldOp w = 2 ∨ fieldOp w = 6 then decide (w.extractLsb' 5 7 ≠ 0)
  else if fieldOp w = 5 then decide (w.extractLsb' 1 11 ≠ 0)
  else if fieldOp w = 4 then decide (w.extractLsb' 0 5 ≠ 0)
  else if fieldOp w = 8 then decide (w.extractLsb' 10 2 ≠ 0)
  else if fieldOp w = 3 then w.getLsbD 11
  else true

/-- The entries EVOLVE stores to for the plaintext pair `(a, b)` (spec/20_memory.md R58): entries `a`
and `b` of the forward tables, and the entries their images name in the inverse tables, the images
being those before the command. -/
def evolveStores (m : Memory) (a b : Index) (sel : TableSel) (x : Index) : Prop :=
  match sel with
  | .sigma => x = a ∨ x = b
  | .tau => x = a ∨ x = b
  | .sigmaInv => Letter.ofIndex x = entry m.sigma a ∨ Letter.ofIndex x = entry m.sigma b
  | .tauInv => Letter.ofIndex x = entry m.tau a ∨ Letter.ofIndex x = entry m.tau b

/-- The entries a command stores to in a state (the column "writes" of spec/20_memory.md R58). -/
def commandStores (i : Instr) (s : State) (sel : TableSel) (x : Index) : Prop :=
  match i with
  | .nop => False
  | .rst => True
  | .rdc _ => False
  | .ldk t k _ => s.armed = false ∧ sel = t ∧ Letter.ofIndex x = k
  | .rdt _ _ => False
  | .start _ => sel = .sigmaInv ∨ sel = .tauInv
  | .letter k =>
    s.armed = true ∧ s.phase = true ∧
      ∃ x' h p, k = Letter.ofIndex x' ∧ s.hold = Letter.ofIndex h ∧ plainLetter x' s = Letter.ofIndex p ∧
        evolveStores s.mem h p sel x
  | .endMsg => False
  | .comp k l =>
    s.armed = true ∧ s.phase = false ∧
      ∃ a b, k = Letter.ofIndex a ∧ l = Letter.ofIndex b ∧ evolveStores s.mem a b sel x

/-- A safe run (spec/00_scope.md R10, spec/70_reset_and_hazards.md R209): the model does not stop, so
every word is answered. -/
abbrev SafeRun (ws : List CmdWord) (s : State) : Prop :=
  ∃ t, runCommands ws s = .next t

end Sys2Proof.Machine
end

