-- ==== Sys2Proof/Certificates/Slice0/Obligations.lean ====
section
/-! DEFINITION. The statements for the provers, each with the rule of spec/ it formalises. -/

open Sys2Proof Sys2Proof.Machine

/-! ### Reset and invariants -/

/-- R36: what reset leaves, after power-up reset, after RST and after a hard reset. -/
def Obligations.ResetLeavesIdentityTablesAndClearFlags : Prop :=
  ∀ t : State,
    (t = State.reset ∨ (∃ s, exec .rst s = .next t) ∨
      ∃ s a rest, s.hostMoves = .hardReset a :: rest ∧ step s = .next t) →
    (∀ sel i, tabRead t.mem sel i = Letter.ofIndex i) ∧
    t.armed = false ∧ t.dir = .encipher ∧ t.phase = false ∧ t.hold = 0 ∧ t.fault = 0 ∧
    statusRegister t = 0x000 ∧ holdRegister t = 0x000 ∧ idRegister = 0x1BA

/-- R35: the four invariants hold in the reset state. -/
def Obligations.ResetMeetsTheFourInvariants : Prop :=
  State.reset.Inv

/-- R35: every step, from every state that meets the invariants, keeps them. -/
def Obligations.StepKeepsTheFourInvariants : Prop :=
  ∀ s t : State, s.Inv → step s = .next t → t.Inv

/-- R35, whole: the invariants hold in the reset state, every command and every illegal word keeps
them, so every reachable state meets them; and INV2's "hence also". -/
def Obligations.InvariantsHoldInEveryReachableState : Prop :=
  State.reset.Inv ∧
  (∀ (i : Instr) (s t : State), s.Inv → exec i s = .next t → t.Inv) ∧
  (∀ s t : State, s.Inv → execIllegal s = .next t → t.Inv) ∧
  (∀ (moves : List HostMove) (k : Nat) (t : State),
    runSteps k { State.reset with hostMoves := moves } = .next t → t.Inv) ∧
  (∀ s : State, s.Inv → s.armed = true → ∀ x y : Index,
    (entry s.mem.sigmaInv y = Letter.ofIndex x → entry s.mem.sigma x = Letter.ofIndex y) ∧
    (entry s.mem.tauInv y = Letter.ofIndex x → entry s.mem.tau x = Letter.ofIndex y))

/-- R10, R71, R202: in a state that meets the invariants every one of the 65536 words is answered
with exactly one response, and every step completes. -/
def Obligations.EveryCommandWordIsAnsweredOnce : Prop :=
  ∀ s : State, s.Inv →
    (∀ w : CmdWord, ∃ t r, runWord w s = .next t ∧ t.responses = s.responses ++ [r] ∧
      t.hostMoves = s.hostMoves) ∧
    ∃ t, step s = .next t

/-- R207, R208, R209: any finite list of words, whatever they are, runs to its end, with one response
a word. -/
def Obligations.EveryRunOfCommandWordsCompletes : Prop :=
  ∀ (ws : List CmdWord) (s : State), s.Inv →
    ∃ t rs, runCommands ws s = .next t ∧ t.Inv ∧ t.responses = s.responses ++ rs ∧ rs.length = ws.length

/-- R71, R170, R173: `STAT` is 0 or one of the four raised codes, never 3 and never above 5, and
`FAULT` never becomes 3. -/
def Obligations.ResponseStatIsZeroOrARaisedCode : Prop :=
  ∀ (w : CmdWord) (s t : State), runWord w s = .next t →
    (∃ r, t.responses = s.responses ++ [r] ∧
      (statOf r = 0 ∨ statOf r = 1 ∨ statOf r = 2 ∨ statOf r = 4 ∨ statOf r = 5)) ∧
    (s.fault ≠ 3 → t.fault ≠ 3)

/-! ### Encoding -/

/-- R70, R73, R74: decoding the encoding of a well-formed command gives it back, every operand at
every value of its field. -/
def Obligations.DecodeOfEncodeIsTheCommand : Prop :=
  ∀ i : Instr, i.wf = true → decode (encode i) = some i

/-- R70, R73, R75: a word that decodes is the one encoding of its command. -/
def Obligations.EncodeOfDecodeIsTheWord : Prop :=
  ∀ (w : CmdWord) (i : Instr), decode w = some i → i.wf = true ∧ encode i = w

/-- R75, R76: the words that are no command are exactly those with a reserved opcode or a nonzero
unused field, and each makes exactly the fault IllegalCommand. -/
def Obligations.IllegalWordsFaultAsIllegalCommand : Prop :=
  (∀ w : CmdWord, decode w = none ↔ illegalWord w = true) ∧
  (∀ (w : CmdWord) (s : State), illegalWord w = true →
    runWord w s = .next (s.takeFault .illegalCommand 0)) ∧
  illegalWord 0xFFFF = true ∧ decode 0x0000 = some .nop

/-- R73: no word satisfies two rows of the opcode map, and a word that satisfies no row is exactly one
that does not decode. -/
def Obligations.OpcodeRowsAreDisjoint : Prop :=
  (∀ (w : CmdWord) (r r' : OpcodeRow), r ∈ opcodeMap → r' ∈ opcodeMap →
    r.accepts w = true → r'.accepts w = true → r = r') ∧
  (∀ w : CmdWord, decode w = none ↔ ∀ r ∈ opcodeMap, r.accepts w = false)

/-- R73, R81: words written out from the encoding decode to their commands. -/
def Obligations.WrittenOutWordsDecodeToTheirCommands : Prop :=
  decode 0b0000000000000000 = some .nop ∧
  decode 0b0001000000000000 = some .rst ∧
  decode 0b0010000000000010 = some (.rdc 2) ∧
  decode 0b0011000000010000 = some (.ldk .sigma 0 16) ∧
  decode 0b0011010000111000 = some (.ldk .tau 1 24) ∧
  decode 0b0100101000000000 = some (.rdt .sigmaInv 16) ∧
  decode 0b0101000000000001 = some (.start .decipher) ∧
  decode 0b0110000000000111 = some (.letter 7) ∧
  decode 0b0111000000000000 = some .endMsg ∧
  decode 0b1000000011100100 = some (.comp 7 4)

/-! ### The step -/

/-- R10: when the host's next move is a word that decodes, the step is the command's meaning on the
state with that move taken. -/
def Obligations.StepRunsTheDecodedCommand : Prop :=
  ∀ (s : State) (w : CmdWord) (rest : List HostMove) (i : Instr),
    s.hostMoves = .command w :: rest → decode w = some i →
    step s = exec i { s with hostMoves := rest }

/-- R76, R183, R203: the other steps. An illegal word faults, a hard reset resets and answers
nothing, and with no move of the host the block keeps all its state. -/
def Obligations.StepOnIllegalWordHardResetAndIdle : Prop :=
  (∀ (s : State) (w : CmdWord) (rest : List HostMove),
    s.hostMoves = .command w :: rest → decode w = none →
    step s = .next (State.takeFault .illegalCommand 0 { s with hostMoves := rest })) ∧
  (∀ (s : State) (a : Option CmdWord) (rest : List HostMove),
    s.hostMoves = .hardReset a :: rest →
    step s = .next { State.reset with hostMoves := rest, responses := s.responses }) ∧
  (∀ s : State, s.hostMoves = [] → step s = .next s)

/-- R60, R202: words waiting in the channel are executed one a step, in their order, each on the
state the earlier ones left. -/
def Obligations.QueuedWordsRunInOrder : Prop :=
  ∀ (ws : List CmdWord) (s : State), s.hostMoves = [] →
    runSteps ws.length { s with hostMoves := ws.map .command } = runCommands ws s

/-! ### Faults -/

/-- R176: what taking a fault does, field by field, for the four codes that are raised. -/
def Obligations.FaultEntryWritesExactlyItsFields : Prop :=
  ∀ (c : ErrorCode) (d : Data) (s : State), c ≠ .lengthMismatch →
    State.takeFault c d s =
      { s with
        fault := if s.fault = 0 then c.code else s.fault
        armed := false
        phase := false
        hold := 0
        responses := s.responses ++ [c.code ++ d] }

/-- R177: a word answered with a nonzero `STAT` has no effect but the fault entry of R176. -/
def Obligations.FaultsArePrecise : Prop :=
  ∀ (w : CmdWord) (s t : State) (r : RspWord),
    runWord w s = .next t → t.responses = s.responses ++ [r] → statOf r ≠ 0 →
    ∃ c d, c ≠ .lengthMismatch ∧ t = s.takeFault c d ∧ r = responseWord c.code d

/-- R29: the sticky first-fault latch; it gates nothing. -/
def Obligations.FaultLatchKeepsTheFirstCode : Prop :=
  State.reset.fault = 0 ∧
  (∀ (w : CmdWord) (s t : State) (r : RspWord),
    runWord w s = .next t → t.responses = s.responses ++ [r] →
    (statOf r ≠ 0 → t.fault = if s.fault = 0 then statOf r else s.fault) ∧
    (statOf r = 0 → decode w ≠ some .rst → t.fault = s.fault) ∧
    (decode w = some .rst → t.fault = 0)) ∧
  (∀ (s t : State) (a : Option CmdWord) (rest : List HostMove),
    s.hostMoves = .hardReset a :: rest → step s = .next t → t.fault = 0) ∧
  (∀ (w : CmdWord) (s t : State) (f : BitVec 4),
    decode w ≠ some (.rdc 0) → runWord w s = .next t →
    ∃ t', runWord w { s with fault := f } = .next t' ∧ { t' with fault := t.fault } = t) ∧
  (∀ s : State, (statusRegister s).extractLsb' 4 4 = s.fault)

/-- R178: when several conditions hold the first in the order decode, state, operand is reported. -/
def Obligations.FaultPriorityIsDecodeThenStateThenOperand : Prop :=
  (∀ (w : CmdWord) (s : State), decode w = none → runWord w s = .next (s.takeFault .illegalCommand 0)) ∧
  (∀ (c : BitVec 5) (s : State), 2 < c.toNat → exec (.rdc c) s = .next (s.takeFault .illegalCommand 0)) ∧
  (∀ (x : Letter) (s : State), s.armed = false →
    exec (.letter x) s = .next (s.takeFault .sequenceError 0)) ∧
  (∀ s : State, s.armed = false → exec .endMsg s = .next (s.takeFault .sequenceError 0)) ∧
  (∀ (a b : Letter) (s : State), s.armed = false ∨ s.phase = true →
    exec (.comp a b) s = .next (s.takeFault .sequenceError 0)) ∧
  (∀ (k : TableSel) (i v : Letter) (s : State), k.isForward = true → s.armed = true →
    exec (.ldk k i v) s = .next (s.takeFault .sequenceError 0)) ∧
  (∀ (k : TableSel) (i v : Letter) (s : State), k.isForward = true → s.armed = false →
    25 < i.toNat ∨ 25 < v.toNat → exec (.ldk k i v) s = .next (s.takeFault .invalidPermutation 0)) ∧
  (∀ (k : TableSel) (i : Letter) (s : State), 25 < i.toNat →
    exec (.rdt k i) s = .next (s.takeFault .invalidLetter 0)) ∧
  (∀ (x : Letter) (s : State), s.armed = true → 25 < x.toNat →
    exec (.letter x) s = .next (s.takeFault .invalidLetter 0)) ∧
  (∀ (a b : Letter) (s : State), s.armed = true → s.phase = false → 25 < a.toNat ∨ 25 < b.toNat →
    exec (.comp a b) s = .next (s.takeFault .invalidLetter 0)) ∧
  (∀ (d : Direction) (s : State), validTable s.mem.sigma = false ∨ validTable s.mem.tau = false →
    ∃ e, exec (.start d) s = .next (s.takeFault .invalidPermutation e) ∧
      e.getLsbD 0 = !validTable s.mem.sigma ∧ e.getLsbD 1 = !validTable s.mem.tau)

/-! ### The nine commands -/

/-- R160: NOP, the word 0 and no other, answers 0 and changes no state. -/
def Obligations.NopChangesNothing : Prop :=
  (∀ w : CmdWord, decode w = some .nop ↔ w = 0x0000) ∧
  ∀ s : State, exec .nop s = .next { s with responses := s.responses ++ [0x0000] }

/-- R161: RST, the word 0x1000 and no other, leaves the reset state and answers 0. -/
def Obligations.RstLeavesTheResetState : Prop :=
  (∀ w : CmdWord, decode w = some .rst ↔ w = 0x1000) ∧
  ∀ s : State,
    exec .rst s =
      .next { State.reset with hostMoves := s.hostMoves, responses := s.responses ++ [0x0000] }

/-- R162 with R32, R33, R34: RDC answers the register, bit by bit, and changes no state; above 2 it
is IllegalCommand. -/
def Obligations.RdcAnswersTheControlRegister : Prop :=
  (∀ c : BitVec 5, (encode (.rdc c)).toNat = 0x2000 + c.toNat) ∧
  statusRegister State.reset = 0x000 ∧ holdRegister State.reset = 0x000 ∧
  (∀ s : State, exec (.rdc 0) s =
    .next { s with responses := s.responses ++ [responseWord 0 (statusRegister s)] }) ∧
  (∀ s : State, exec (.rdc 1) s =
    .next { s with responses := s.responses ++ [responseWord 0 (holdRegister s)] }) ∧
  (∀ s : State, exec (.rdc 2) s = .next { s with responses := s.responses ++ [0x01BA] }) ∧
  (∀ (c : BitVec 5) (s : State), 2 < c.toNat →
    exec (.rdc c) s = .next (s.takeFault .illegalCommand 0)) ∧
  (∀ s : State,
    (statusRegister s).getLsbD 0 = s.armed ∧
    (statusRegister s).getLsbD 1 = decide (s.dir = .decipher) ∧
    (statusRegister s).getLsbD 2 = s.phase ∧
    (statusRegister s).getLsbD 3 = false ∧
    (statusRegister s).extractLsb' 4 4 = s.fault ∧
    (statusRegister s).extractLsb' 8 4 = 0) ∧
  (∀ s : State,
    (holdRegister s).extractLsb' 0 5 = s.hold ∧ (holdRegister s).extractLsb' 5 7 = 0)

/-- R110: LDK, every path. On success one entry changes and nothing else. -/
def Obligations.LdkWritesOneKeyTableEntry : Prop :=
  (∀ i v : Letter,
    (encode (.ldk .sigma i v)).toNat = 0x3000 + 0 * 1024 + i.toNat * 32 + v.toNat ∧
    (encode (.ldk .tau i v)).toNat = 0x3000 + 1 * 1024 + i.toNat * 32 + v.toNat) ∧
  ∀ (k : TableSel) (i v : Letter) (s : State), k.isForward = true →
    (s.armed = true → exec (.ldk k i v) s = .next (s.takeFault .sequenceError 0)) ∧
    (s.armed = false → 25 < i.toNat ∨ 25 < v.toNat →
      exec (.ldk k i v) s = .next (s.takeFault .invalidPermutation 0)) ∧
    (s.armed = false → ∀ j : Index, i = Letter.ofIndex j → v.toNat ≤ 25 →
      ∃ m : Memory,
        exec (.ldk k i v) s = .next { s with mem := m, responses := s.responses ++ [0x0000] } ∧
        ∀ sel x, tabRead m sel x = if sel = k ∧ x = j then v else tabRead s.mem sel x)

/-- R51: LDK of an inverse table, which no word encodes, is IllegalCommand. -/
def Obligations.LdkOfAnInverseTableIsIllegal : Prop :=
  ∀ (k : TableSel) (i v : Letter) (s : State), k.isForward = false →
    exec (.ldk k i v) s = .next (s.takeFault .illegalCommand 0)

/-- R111: RDT answers what is stored, in every state, and changes nothing; an index above 25 is
InvalidLetter. -/
def Obligations.RdtAnswersTheStoredEntry : Prop :=
  (∀ i : Letter,
    (encode (.rdt .sigma i)).toNat = 0x4000 + 0 * 1024 + i.toNat * 32 ∧
    (encode (.rdt .tau i)).toNat = 0x4000 + 1 * 1024 + i.toNat * 32 ∧
    (encode (.rdt .sigmaInv i)).toNat = 0x4000 + 2 * 1024 + i.toNat * 32 ∧
    (encode (.rdt .tauInv i)).toNat = 0x4000 + 3 * 1024 + i.toNat * 32) ∧
  (∀ (k : TableSel) (j : Index) (s : State),
    exec (.rdt k (Letter.ofIndex j)) s =
      .next { s with responses := s.responses ++ [responseWord 0 ((tabRead s.mem k j).setWidth 12)] }) ∧
  (∀ (k : TableSel) (i : Letter) (s : State), 25 < i.toNat →
    exec (.rdt k i) s = .next (s.takeFault .invalidLetter 0))

/-- R112: START, both paths. On success both inverse tables are written, the forward tables are not,
and the message is open. -/
def Obligations.StartValidatesTheKeyPairAndOpensAMessage : Prop :=
  encode (.start .encipher) = 0x5000 ∧ encode (.start .decipher) = 0x5001 ∧
  ∀ (d : Direction) (s : State),
    (validTable s.mem.sigma = true → validTable s.mem.tau = true →
      exec (.start d) s = .next { s with
        mem := { s.mem with sigmaInv := invertTable s.mem.sigma, tauInv := invertTable s.mem.tau }
        armed := true
        dir := d
        phase := false
        hold := 0
        responses := s.responses ++ [0x0000] }) ∧
    (validTable s.mem.sigma = false ∨ validTable s.mem.tau = false →
      ∃ e : Data, exec (.start d) s = .next (s.takeFault .invalidPermutation e) ∧
        e.getLsbD 0 = !validTable s.mem.sigma ∧ e.getLsbD 1 = !validTable s.mem.tau ∧
        e.extractLsb' 2 10 = 0)

/-- R130: LET, every path. The output is looked up before EVOLVE; `HOLD` takes the plaintext letter;
the second letter of a pair evolves all four tables with the plaintext pair. -/
def Obligations.LetSubstitutesAndEvolves : Prop :=
  (∀ x : Letter, (encode (.letter x)).toNat = 0x6000 + x.toNat) ∧
  (∀ (x : Letter) (s : State), s.armed = false →
    exec (.letter x) s = .next (s.takeFault .sequenceError 0)) ∧
  (∀ (x : Letter) (s : State), s.armed = true → 25 < x.toNat →
    exec (.letter x) s = .next (s.takeFault .invalidLetter 0)) ∧
  (∀ (x : Index) (s : State), s.armed = true → s.phase = false → s.dir = .encipher →
    exec (.letter (Letter.ofIndex x)) s = .next { s with
      hold := Letter.ofIndex x
      phase := true
      responses := s.responses ++ [responseWord 0 ((entry s.mem.sigma x).setWidth 12)] }) ∧
  (∀ (x : Index) (s : State), s.armed = true → s.phase = false → s.dir = .decipher →
    exec (.letter (Letter.ofIndex x)) s = .next { s with
      hold := entry s.mem.sigmaInv x
      phase := true
      responses := s.responses ++ [responseWord 0 ((entry s.mem.sigmaInv x).setWidth 12)] }) ∧
  (∀ (x h : Index) (s : State), s.armed = true → s.phase = true → s.dir = .encipher →
    s.hold = Letter.ofIndex h →
    exec (.letter (Letter.ofIndex x)) s = .next { s with
      mem := {
        sigma := composeTable s.mem.sigma h x
        tau := composeTable s.mem.tau h x
        sigmaInv := composeInverse s.mem.sigma s.mem.sigmaInv h x
        tauInv := composeInverse s.mem.tau s.mem.tauInv h x }
      hold := 0
      phase := false
      responses := s.responses ++ [responseWord 0 ((entry s.mem.tau x).setWidth 12)] }) ∧
  (∀ (x h p : Index) (s : State), s.armed = true → s.phase = true → s.dir = .decipher →
    s.hold = Letter.ofIndex h → entry s.mem.tauInv x = Letter.ofIndex p →
    exec (.letter (Letter.ofIndex x)) s = .next { s with
      mem := {
        sigma := composeTable s.mem.sigma h p
        tau := composeTable s.mem.tau h p
        sigmaInv := composeInverse s.mem.sigma s.mem.sigmaInv h p
        tauInv := composeInverse s.mem.tau s.mem.tauInv h p }
      hold := 0
      phase := false
      responses := s.responses ++ [responseWord 0 ((Letter.ofIndex p).setWidth 12)] })

/-- R130 with INV1: LET of a letter in an open message always succeeds, answers one letter and
toggles `PHASE`. -/
def Obligations.LetOfALetterSucceedsInAnOpenMessage : Prop :=
  ∀ (x : Letter) (s : State), s.InRange → s.armed = true → x.toNat ≤ 25 →
    ∃ (t : State) (out : Letter), exec (.letter x) s = .next t ∧ out.toNat ≤ 25 ∧
      t.responses = s.responses ++ [responseWord 0 (out.setWidth 12)] ∧
      t.armed = true ∧ t.phase = !s.phase ∧ t.dir = s.dir ∧ t.fault = s.fault

/-- R131: END, both paths. -/
def Obligations.EndClosesTheMessageAndAnswersItsParity : Prop :=
  encode .endMsg = 0x7000 ∧
  ∀ s : State,
    (s.armed = false → exec .endMsg s = .next (s.takeFault .sequenceError 0)) ∧
    (s.armed = true → exec .endMsg s = .next { s with
      armed := false
      phase := false
      hold := 0
      responses := s.responses ++ [if s.phase = true then 0x0001 else 0x0000] })

/-- R132: COMP, every path; its effect is that of the two LETs in encipher direction less their
output; equal letters change nothing, the order of the letters does not matter, and COMP twice
restores the tables. -/
def Obligations.CompComposesBothTables : Prop :=
  (∀ a b : Letter, (encode (.comp a b)).toNat = 0x8000 + a.toNat * 32 + b.toNat) ∧
  (∀ (a b : Letter) (s : State), s.armed = false ∨ s.phase = true →
    exec (.comp a b) s = .next (s.takeFault .sequenceError 0)) ∧
  (∀ (a b : Letter) (s : State), s.armed = true → s.phase = false → 25 < a.toNat ∨ 25 < b.toNat →
    exec (.comp a b) s = .next (s.takeFault .invalidLetter 0)) ∧
  (∀ (a b : Index) (s : State), s.armed = true → s.phase = false →
    exec (.comp (Letter.ofIndex a) (Letter.ofIndex b)) s = .next { s with
      mem := {
        sigma := composeTable s.mem.sigma a b
        tau := composeTable s.mem.tau a b
        sigmaInv := composeInverse s.mem.sigma s.mem.sigmaInv a b
        tauInv := composeInverse s.mem.tau s.mem.tauInv a b }
      responses := s.responses ++ [0x0000] }) ∧
  (∀ (a b : Index) (s : State), s.Inv → s.armed = true → s.phase = false →
    (s.dir = .encipher → ∃ t,
      runCommands [encode (.letter (Letter.ofIndex a)), encode (.letter (Letter.ofIndex b))] s = .next t ∧
      exec (.comp (Letter.ofIndex a) (Letter.ofIndex b)) s =
        .next { t with responses := s.responses ++ [0x0000] }) ∧
    exec (.comp (Letter.ofIndex a) (Letter.ofIndex a)) s =
      .next { s with responses := s.responses ++ [0x0000] } ∧
    exec (.comp (Letter.ofIndex a) (Letter.ofIndex b)) s =
      exec (.comp (Letter.ofIndex b) (Letter.ofIndex a)) s ∧
    runCommands [encode (.comp (Letter.ofIndex a) (Letter.ofIndex b)),
      encode (.comp (Letter.ofIndex a) (Letter.ofIndex b))] s =
      .next { s with responses := s.responses ++ [0x0000, 0x0000] })

/-! ### Frames and whole-machine rules -/

/-- R58: a command that completes leaves every table entry outside those it stores to as before. -/
def Obligations.CommandsStoreOnlyWhereTheirRuleSays : Prop :=
  ∀ (i : Instr) (s t : State), exec i s = .next t → ∀ (sel : TableSel) (x : Index),
    ¬ commandStores i s sel x → tabRead t.mem sel x = tabRead s.mem sel x

/-- R25: only START arms the block; only END, RST and a fault disarm it. -/
def Obligations.OnlyStartArmsTheBlock : Prop :=
  ∀ (i : Instr) (s t : State), exec i s = .next t →
    (s.armed = false → t.armed = true → ∃ d, i = .start d) ∧
    (s.armed = true → t.armed = false → i = .endMsg ∨ i = .rst ∨ ∃ c d, t = s.takeFault c d)

/-- R26: `DIR` is written only by a successful START, from its operand, and by RST. -/
def Obligations.OnlyStartAndResetWriteTheDirection : Prop :=
  ∀ (i : Instr) (s t : State), exec i s = .next t → i ≠ .rst →
    t.dir = s.dir ∨ ∃ d, i = .start d ∧ t.dir = d ∧ t.armed = true

/-- R27, R28: `PHASE` and `HOLD` change only by LET, START, END, RST and faults. -/
def Obligations.OnlyMessageCommandsChangePhaseAndHold : Prop :=
  ∀ (i : Instr) (s t : State), exec i s = .next t →
    (t.phase = s.phase ∧ t.hold = s.hold) ∨
    (t.phase = false ∧ t.hold = 0 ∧
      ((∃ d, i = .start d) ∨ i = .endMsg ∨ i = .rst ∨ ∃ c d, t = s.takeFault c d)) ∨
    (∃ x, i = .letter x ∧ t.phase = !s.phase)

/-- R25, R171: a letter is answered only under a key that passed validation. -/
def Obligations.NoLetterIsAnsweredUnderAnInvalidKey : Prop :=
  ∀ (moves : List HostMove) (k : Nat) (s t : State) (x : Letter) (d : Data),
    runSteps k { State.reset with hostMoves := moves } = .next s →
    exec (.letter x) s = .next t → t.responses = s.responses ++ [responseWord 0 d] →
    validTable s.mem.sigma = true ∧ validTable s.mem.tau = true

/-- R142: the message state machine, its full transition table. -/
def Obligations.MessageStateMachineTransitions : Prop :=
  (∀ s : State, s.Inv → s.messageState ≠ .unreachable) ∧
  (∀ (i : Instr) (s t : State) (r : RspWord), s.Inv → exec i s = .next t →
    t.responses = s.responses ++ [r] →
    (statOf r = 0 → s.messageState.allows i = true ∧ t.messageState = s.messageState.after i) ∧
    (statOf r ≠ 0 → t.messageState = .idle)) ∧
  (∀ (d : Direction) (s : State), s.Inv → s.armed = true →
    ∃ t, exec (.start d) s = .next t ∧ t.messageState = .first) ∧
  (∀ (w : CmdWord) (s t : State), decode w = none → runWord w s = .next t → t.messageState = .idle) ∧
  (∀ (s t : State) (a : Option CmdWord) (rest : List HostMove),
    s.hostMoves = .hardReset a :: rest → step s = .next t → t.messageState = .idle) ∧
  (∀ s : State, ∃ t, runCommands [encode .rst, encode (.start .encipher)] s = .next t ∧
    t.messageState = .first)

/-! ### The functional units -/

/-- R90: the transposition, its definition and its facts. -/
def Obligations.TranspositionSwapsItsTwoLetters : Prop :=
  ∀ a b : Index,
    transposeLetter a b a = b ∧ transposeLetter a b b = a ∧
    (∀ x, x ≠ a → x ≠ b → transposeLetter a b x = x) ∧
    (∀ x, transposeLetter a a x = x) ∧
    (∀ x, transposeLetter a b x = transposeLetter b a x) ∧
    (∀ x, transposeLetter a b (transposeLetter a b x) = x) ∧
    Function.Bijective (transposeLetter a b) ∧
    (∀ x, transposeLetter a b x = a ∨ transposeLetter a b x = b ∨ transposeLetter a b x = x)

/-- R91, R92: the composition applies the transposition first, so it exchanges two positions. -/
def Obligations.ComposeExchangesTwoPositions : Prop :=
  ∀ (T : Table) (a b : Index),
    (∀ x, entry (composeTable T a b) x = entry T (transposeLetter a b x)) ∧
    entry (composeTable T a b) a = entry T b ∧
    entry (composeTable T a b) b = entry T a ∧
    (∀ x, x ≠ a → x ≠ b → entry (composeTable T a b) x = entry T x) ∧
    composeTable T a a = T

/-- R93: the inverse table that goes with the composition, in its three forms. -/
def Obligations.ComposeInverseIsTheInverseOfTheComposition : Prop :=
  ∀ (T TI : Table) (a b : Index), validTable T = true → IsInverse T TI →
    (∀ y, Letter.ofIndex y = entry T b → entry (composeInverse T TI a b) y = Letter.ofIndex a) ∧
    (∀ y, Letter.ofIndex y = entry T a → entry (composeInverse T TI a b) y = Letter.ofIndex b) ∧
    (∀ y, Letter.ofIndex y ≠ entry T a → Letter.ofIndex y ≠ entry T b →
      entry (composeInverse T TI a b) y = entry TI y) ∧
    (∀ ya yb, Letter.ofIndex ya = entry T a → Letter.ofIndex yb = entry T b →
      entry (composeInverse T TI a b) ya = entry TI yb ∧ entry (composeInverse T TI a b) yb = entry TI ya) ∧
    (∀ x y, entry TI y = Letter.ofIndex x →
      entry (composeInverse T TI a b) y = Letter.ofIndex (transposeLetter a b x)) ∧
    composeInverse T TI a a = TI ∧
    IsInverse (composeTable T a b) (composeInverse T TI a b)

/-- R94: EVOLVE replaces the four tables at once, from the tables before it, and writes nothing else;
equal letters change nothing, and equal forward tables stay equal. -/
def Obligations.EvolveAdvancesAllFourTablesAtOnce : Prop :=
  ∀ (a b : Index) (s : State), s.Inv → s.armed = true →
    s.evolve a b = { s with mem := {
      sigma := composeTable s.mem.sigma a b
      tau := composeTable s.mem.tau a b
      sigmaInv := composeInverse s.mem.sigma s.mem.sigmaInv a b
      tauInv := composeInverse s.mem.tau s.mem.tauInv a b } } ∧
    s.evolve a a = s ∧
    (s.mem.sigma = s.mem.tau → (s.evolve a b).mem.sigma = (s.evolve a b).mem.tau)

/-- R97: after any number of update steps the tables are still bijections with their inverses. -/
def Obligations.EvolutionPreservesBijections : Prop :=
  ∀ (pairs : List (Index × Index)) (m : Memory),
    validTable m.sigma = true → validTable m.tau = true →
    IsInverse m.sigma m.sigmaInv → IsInverse m.tau m.tauInv →
    let n := pairs.foldl (fun m p => m.evolve p.1 p.2) m
    validTable n.sigma = true ∧ validTable n.tau = true ∧
      IsInverse n.sigma n.sigmaInv ∧ IsInverse n.tau n.tauInv

/-- R95: for a table of letters, VALID is pairwise distinctness, which is being a bijection. -/
def Obligations.ValidTableIsABijection : Prop :=
  ∀ T : Table, (∀ i : Index, (entry T i).toNat ≤ 25) →
    (validTable T = true ↔ ∀ i j : Index, i ≠ j → entry T i ≠ entry T j) ∧
    (validTable T = true ↔ ∃ σ : Permutation, T = tableOf σ)

/-- R96: INVERT of a valid table is its inverse, and itself valid. -/
def Obligations.InvertTableSwapsDomainAndImage : Prop :=
  ∀ T : Table, validTable T = true →
    (∀ i y : Index, entry T i = Letter.ofIndex y → entry (invertTable T) y = Letter.ofIndex i) ∧
    validTable (invertTable T) = true ∧
    invertTable (invertTable T) = T

/-! ### Messages -/

/-- R137: decipher undoes encipher and encipher undoes decipher, for all keys and all messages, and
the recovered plaintext, by which decipher evolves the key pair, evolves it as the plaintext did. -/
def Obligations.DecipherInvertsEncipher : Prop :=
  ∀ (σ τ : Permutation) (m : List Index),
    decipher σ τ (encipher σ τ m) = m ∧ encipher σ τ (decipher σ τ m) = m ∧
    evolved σ (decipher σ τ (encipher σ τ m)) = evolved σ m ∧
    evolved τ (decipher σ τ (encipher σ τ m)) = evolved τ m

/-- R138: both operations keep the length. -/
def Obligations.EncipherPreservesLength : Prop :=
  ∀ (σ τ : Permutation) (m : List Index),
    (encipher σ τ m).length = m.length ∧ (decipher σ τ m).length = m.length

/-- R139: repeated-letter leakage across a pair boundary, its companions, and the identity
transposition of a pair of equal letters. -/
def Obligations.RepeatedLettersLeak : Prop :=
  ∀ (σ τ : Permutation) (m : List Index) (n : Nat) (a b c : Index),
    m[2 * n]? = some a → m[2 * n + 1]? = some b → m[2 * n + 2]? = some c →
    (b = c → (encipher σ τ m)[2 * n + 2]? = (encipher σ τ m)[2 * n]?) ∧
    (c = a → (encipher σ τ m)[2 * n + 2]? = some (evolved σ (m.take (2 * n)) b)) ∧
    (a = b → evolved σ (m.take (2 * n + 2)) = evolved σ (m.take (2 * n)) ∧
      evolved τ (m.take (2 * n + 2)) = evolved τ (m.take (2 * n))) ∧
    (m[2 * n + 3]? = some a → (encipher σ τ m)[2 * n + 3]? = (encipher σ τ m)[2 * n + 1]?)

/-- R136: the command sequence START, LETs, END computes Encipher and Decipher, answers the parity
of the length, and leaves the evolved key pair with its inverses, disarmed. -/
def Obligations.CommandSequencesComputeTheCipher : Prop :=
  ∀ (σ τ : Permutation) (s : State), s.mem.sigma = tableOf σ → s.mem.tau = tableOf τ →
    (∀ m : List Index, ∃ t, runCommands (messageWords .encipher m) s = .next t ∧
      t.responses = s.responses ++ [0x0000] ++
        (encipher σ τ m).map (fun x => responseWord 0 ((Letter.ofIndex x).setWidth 12)) ++
        [responseWord 0 (BitVec.ofNat 12 (m.length % 2))] ∧
      t.mem.sigma = tableOf (evolved σ m) ∧ t.mem.tau = tableOf (evolved τ m) ∧
      t.mem.sigmaInv = tableOf (evolved σ m).symm ∧ t.mem.tauInv = tableOf (evolved τ m).symm ∧
      t.armed = false) ∧
    (∀ c : List Index, ∃ t, runCommands (messageWords .decipher c) s = .next t ∧
      t.responses = s.responses ++ [0x0000] ++
        (decipher σ τ c).map (fun x => responseWord 0 ((Letter.ofIndex x).setWidth 12)) ++
        [responseWord 0 (BitVec.ofNat 12 (c.length % 2))] ∧
      t.mem.sigma = tableOf (evolved σ (decipher σ τ c)) ∧
      t.mem.tau = tableOf (evolved τ (decipher σ τ c)) ∧
      t.mem.sigmaInv = tableOf (evolved σ (decipher σ τ c)).symm ∧
      t.mem.tauInv = tableOf (evolved τ (decipher σ τ c)).symm ∧
      t.armed = false)

/-- R137 for the block: encipher from a key, reload the key, decipher the answers: the message comes
back, and the four tables end as they did after the encipher run. -/
def Obligations.BlockDeciphersWhatItEnciphered : Prop :=
  ∀ (σ τ : Permutation) (s s' : State), s.mem.sigma = tableOf σ → s.mem.tau = tableOf τ →
    s'.mem.sigma = tableOf σ → s'.mem.tau = tableOf τ →
    ∀ m : List Index, ∃ (c : List Index) (t t' : State),
      runCommands (messageWords .encipher m) s = .next t ∧
      t.responses = s.responses ++ [0x0000] ++
        c.map (fun x => responseWord 0 ((Letter.ofIndex x).setWidth 12)) ++
        [responseWord 0 (BitVec.ofNat 12 (m.length % 2))] ∧
      runCommands (messageWords .decipher c) s' = .next t' ∧
      t'.responses = s'.responses ++ [0x0000] ++
        m.map (fun x => responseWord 0 ((Letter.ofIndex x).setWidth 12)) ++
        [responseWord 0 (BitVec.ofNat 12 (m.length % 2))] ∧
      t'.mem = t.mem

/-- R140: the responses of a message depend on the two forward tables, the direction and the letters
alone, not on the inverse tables, the flags or the fault latch. -/
def Obligations.OutputsDependOnlyOnKeyDirectionAndLetters : Prop :=
  ∀ (s s' : State), s.mem.sigma = s'.mem.sigma → s.mem.tau = s'.mem.tau →
    ∀ (d : Direction) (letters : List Index) (t : State),
      runCommands (messageWords d letters) s = .next t →
      ∃ (t' : State) (rs : List RspWord), runCommands (messageWords d letters) s' = .next t' ∧
        t.responses = s.responses ++ rs ∧ t'.responses = s'.responses ++ rs

/-- R99: the units seen through commands. After START and COMP, RDT answers the transposition of the
identity, and in general the composed table and its inverse. -/
def Obligations.UnitsAreVisibleThroughCommands : Prop :=
  (∀ a b x : Index, ∃ t,
    runCommands [encode (.start .encipher), encode (.comp (Letter.ofIndex a) (Letter.ofIndex b)),
      encode (.rdt .sigma (Letter.ofIndex x))] State.reset = .next t ∧
    t.mem.sigma = composeTable identityTable a b ∧ t.mem.tau = composeTable identityTable a b ∧
    t.responses = [0x0000, 0x0000,
      responseWord 0 ((Letter.ofIndex (transposeLetter a b x)).setWidth 12)]) ∧
  (∀ (a b x : Index) (s : State), validTable s.mem.sigma = true → validTable s.mem.tau = true →
    ∃ t, runCommands [encode (.start .encipher), encode (.comp (Letter.ofIndex a) (Letter.ofIndex b)),
      encode (.rdt .sigma (Letter.ofIndex x)), encode (.rdt .sigmaInv (Letter.ofIndex x))] s = .next t ∧
    t.responses = s.responses ++ [0x0000, 0x0000,
      responseWord 0 ((entry (composeTable s.mem.sigma a b) x).setWidth 12),
      responseWord 0 ((entry (composeInverse s.mem.sigma (invertTable s.mem.sigma) a b) x).setWidth 12)])

/-- R82 `KEY`, R205: the 26 LDK commands of a KEY, in a block that is not armed, load the table and
change nothing else but the responses. -/
def Obligations.KeyLoadWritesTheWholeTable : Prop :=
  ∀ (key : Table) (s : State), (∀ i : Index, (entry key i).toNat ≤ 25) → s.armed = false →
    runCommands ((keyLoad .sigma key).map encode) s =
      .next { s with
        mem := { s.mem with sigma := key }
        responses := s.responses ++ List.replicate 26 0x0000 } ∧
    runCommands ((keyLoad .tau key).map encode) s =
      .next { s with
        mem := { s.mem with tau := key }
        responses := s.responses ++ List.replicate 26 0x0000 }

/-- R81: the examples of the assembler syntax. -/
def Obligations.AssemblerEmitsTheExampleWords : Prop :=
  assembleWords? "LDK SIGMA, 'A', 'Q'".toList = some [0x3010] ∧
  assembleWords? "LDK TAU, 'B', 'Y'".toList = some [0x3438] ∧
  assembleWords? "RDT SIGMA_INV, 'Q'".toList = some [0x4A00] ∧
  assembleWords? "START DEC".toList = some [0x5001] ∧
  assembleWords? "LET 'H'".toList = some [0x6007] ∧
  assembleWords? "COMP 'H', 'E'".toList = some [0x80E4] ∧
  assembleWords? "RDC ID".toList = some [0x2002] ∧
  responseText (.letter 7) 0x0008 = "0x0008 (I)".toList

/-! ### Ports and instances -/

/-- R201: an offered response stays offered, unchanged, until the host takes it, and with it the
state. -/
def Obligations.OfferedResponseIsHeldUntilTaken : Prop :=
  ∀ (p : Ports) (r : RspWord) (pins : Pins), p.rspData? = some r → pins.rst = false →
    (pins.rspReady = false → edge pins p = .next p) ∧
    (pins.rspReady = true → ∃ q, edge pins p = .next q ∧ q.rspValid = false ∧
      q.block = { p.block with responses := p.block.responses ++ [r] })

/-- R203: an edge with `rst = 1` resets the block from every state of the handshake; a command in
flight, or a response not yet taken, is abandoned: nothing is in flight, `cmd_ready` and `rsp_valid`
are 0, and until the host offers a command no response comes and the state stays the reset state. -/
def Obligations.HardResetAtAnyEdgeAbandonsTheCommand : Prop :=
  ∀ (p : Ports) (pins : Pins), pins.rst = true →
    (∃ q n, edge pins p = .next q ∧ q.link = .resting n ∧ q.cmdReady = false ∧ q.rspValid = false ∧
      q.block = { State.reset with hostMoves := p.block.hostMoves, responses := p.block.responses }) ∧
    ∀ later : List Pins, (∀ e ∈ later, e.cmdValid = false) →
      ∃ q, runEdges (pins :: later) p = .next q ∧ q.rspValid = false ∧
        q.block = { State.reset with hostMoves := p.block.hostMoves, responses := p.block.responses }

/-- R201, R202, R203: a command offered while `cmd_ready` is still 0, whatever the block waits for (a
command in flight, a response not taken, a wait after a reset or a delivery), is accepted, as
offered, at the first edge at which `cmd_ready` is 1, if the host keeps its offer as R201 says; that
edge comes after finitely many if the host takes responses; and a block that only waits (log 7)
comes to it whatever `rsp_ready` is, with its state as before. -/
def Obligations.HeldCommandIsAcceptedAsOffered : Prop :=
  (∀ (p q : Ports) (first last : Pins) (mid : List Pins), p.cmdReady = false →
    hostKeepsOffers (first :: mid ++ [last]) p → first.cmdValid = true →
    (∀ e ∈ first :: mid ++ [last], e.rst = false) →
    (∀ (k : Nat) (r : Ports), k < mid.length →
      runEdges (first :: mid.take k) p = .next r → r.cmdReady = false) →
    runEdges (first :: mid) p = .next q → q.cmdReady = true →
    runEdges (first :: mid ++ [last]) p = q.accept first.cmdData) ∧
  (∀ p : Ports, p.block.Inv → ∃ n : Nat, ∀ (first : Pins) (later : List Pins),
    hostKeepsOffers (first :: later) p → first.cmdValid = true →
    (∀ e ∈ first :: later, e.rst = false ∧ e.rspReady = true) → later.length = n →
    ∃ q : Ports, q.cmdReady = true ∧ runEdges (first :: later) p = q.accept first.cmdData) ∧
  ∀ (p : Ports) (n : Nat) (first : Pins) (later : List Pins), p.link = .resting n →
    hostKeepsOffers (first :: later) p → first.cmdValid = true →
    (∀ e ∈ first :: later, e.rst = false) → later.length = n + 1 →
    runEdges (first :: later) p = Ports.accept first.cmdData { p with link := .ready }

/-- R203, R207: from any point of the handshake, with `rst = 0`, a host that takes responses and
sends nothing sees `cmd_ready = 1` after finitely many edges. -/
def Obligations.QuietHostSeesReadyAgain : Prop :=
  ∀ p : Ports, p.block.Inv → ∃ n : Nat, ∀ es : List Pins, es.length = n →
    (∀ e ∈ es, e.rst = false ∧ e.cmdValid = false ∧ e.rspReady = true) →
    ∃ q, runEdges es p = .next q ∧ q.cmdReady = true

/-- R202: the architectural state changes only at an edge where a command in flight completes; at an
edge without reset where none does, it is as before, but for a response delivered. -/
def Obligations.StateChangesOnlyWhileACommandIsInFlight : Prop :=
  ∀ (p q : Ports) (pins : Pins), pins.rst = false → edge pins p = .next q →
    (∃ r, q.rspData? = some r ∧ p.rspValid = false ∧
      ((p.cmdReady = true ∧ pins.cmdValid = true) ∨ ∃ w, p.link = .busy w 0)) ∨
    (q.block = p.block) ∨
    (∃ r, p.rspData? = some r ∧ pins.rspReady = true ∧
      q.block = { p.block with responses := p.block.responses ++ [r] })

/-- R207: from the acceptance of a command, whatever the word, its response is offered after exactly
the drawn `LATENCY` and not before, provided `rst` stays 0, whatever the other pins do. -/
def Obligations.AcceptedCommandIsAnsweredAfterItsLatency : Prop :=
  ∀ (p : Ports) (first : Pins) (later : List Pins), p.block.Inv → p.cmdReady = true →
    first.rst = false → first.cmdValid = true → (∀ e ∈ later, e.rst = false) →
    later.length = Config.latency p.uses →
    (∃ q, runEdges (first :: later) p = .next q ∧ q.rspValid = true) ∧
    ∀ k, k < later.length → ∃ q, runEdges (first :: later.take k) p = .next q ∧ q.rspValid = false

/-- R10, R202: one handshake at the ports (accept, wait out the latency, let the host take its time,
deliver) has exactly the effect of the transaction. The latency waited out is the drawn free number
(log 7), and the state changes at the edge at which `rsp_valid` rises, the model's choice (log 8). -/
def Obligations.PortsRefineTheTransactionModel : Prop :=
  ∀ (p : Ports) (first last : Pins) (later waits : List Pins) (t : State), p.cmdReady = true →
    first.rst = false → first.cmdValid = true →
    (∀ e ∈ later, e.rst = false) → later.length = Config.latency p.uses →
    (∀ e ∈ waits, e.rst = false ∧ e.rspReady = false) →
    last.rst = false → last.rspReady = true →
    runWord first.cmdData p.block = .next t →
    ∃ q, runEdges (first :: later ++ waits ++ [last]) p = .next q ∧ q.block = t ∧ q.rspValid = false

/-- R184: two instances share nothing, so their steps commute and neither changes the other. -/
def Obligations.InstancesAreIndependent : Prop :=
  ∀ (j k : Nat) (blocks : Instances), j ≠ k →
    (stepInstance j blocks)[k]? = blocks[k]? ∧
    stepInstance j (stepInstance k blocks) = stepInstance k (stepInstance j blocks)
end

