-- ==== Sys2Proof/Laws/Operands.lean ====
section
/-! SUPPORT. Letters, codes and checked indices: each conversion undoes the other. -/

namespace Sys2Proof

@[simp] theorem Letter.toNat_ofIndex (i : Index) : (Letter.ofIndex i).toNat = i.val := by
  simp only [Letter.ofIndex, BitVec.toNat_ofNat]
  omega

@[simp] theorem Letter.index?_ofIndex (i : Index) : Letter.index? (Letter.ofIndex i) = some i := by
  simp [Letter.index?]

@[simp] theorem Letter.isLetter_ofIndex (i : Index) : Letter.isLetter (Letter.ofIndex i) = true := by
  simp only [Letter.isLetter, Letter.toNat_ofIndex, decide_eq_true_eq]
  omega

@[simp] theorem Letter.ofIndex_inj {i j : Index} : Letter.ofIndex i = Letter.ofIndex j ↔ i = j := by
  refine ⟨fun h => ?_, fun h => h ▸ rfl⟩
  have := congrArg BitVec.toNat h
  simpa [Fin.ext_iff] using this

theorem Letter.isLetter_iff {x : Letter} : Letter.isLetter x = true ↔ x.toNat ≤ 25 := by
  simp [Letter.isLetter]

theorem Letter.index?_eq_some {x : Letter} {i : Index} :
    Letter.index? x = some i ↔ x = Letter.ofIndex i := by
  constructor
  · intro h
    unfold Letter.index? at h
    split at h
    · cases h
      exact BitVec.eq_of_toNat_eq (by simp)
    · cases h
  · rintro rfl
    simp

theorem Letter.index?_eq_none {x : Letter} : Letter.index? x = none ↔ 25 < x.toNat := by
  unfold Letter.index?
  split <;> simp <;> omega

/-- A code that passes the letter check is the code of a letter. -/
theorem Letter.exists_index {x : Letter} (h : Letter.isLetter x = true) :
    ∃ i : Index, x = Letter.ofIndex i :=
  ⟨⟨x.toNat, by have := Letter.isLetter_iff.mp h; omega⟩, BitVec.eq_of_toNat_eq (by simp)⟩

theorem Letter.isLetter_eq_false {x : Letter} : Letter.isLetter x = false ↔ 25 < x.toNat := by
  simp [Letter.isLetter]

end Sys2Proof
end

