-- ==== Sys2Proof/Laws/Units.lean ====
section
/-! SUPPORT. What one entry of each unit's result is, and what a valid table is. -/

namespace Sys2Proof.Machine

@[simp] theorem entry_tableFrom (f : Index → Letter) (x : Index) : entry (tableFrom f) x = f x := by
  simp [entry, tableFrom]

@[simp] theorem entry_identityTable (i : Index) : entry identityTable i = Letter.ofIndex i := by
  simp [entry, identityTable, Letter.ofIndex]

@[simp] theorem entry_composeTable (T : Table) (a b x : Index) :
    entry (composeTable T a b) x = entry T (transposeLetter a b x) := by
  simp [composeTable]

theorem entry_composeInverse (T TI : Table) (a b y : Index) :
    entry (composeInverse T TI a b) y =
      if Letter.ofIndex y = entry T b then Letter.ofIndex a
      else if Letter.ofIndex y = entry T a then Letter.ofIndex b
      else entry TI y := by
  simp [composeInverse]

/-- A table is its entries. -/
theorem table_ext {T U : Table} (h : ∀ x : Index, entry T x = entry U x) : T = U :=
  Vector.ext fun i hi => h ⟨i, hi⟩

theorem tableInRange_iff {T : Table} :
    tableInRange T = true ↔ ∀ i : Index, Letter.isLetter (entry T i) = true := by
  simp [tableInRange]

theorem validTable_iff {T : Table} :
    validTable T = true ↔
      (∀ i : Index, Letter.isLetter (entry T i) = true) ∧ ∀ i j : Index, i ≠ j → entry T i ≠ entry T j := by
  simp [validTable, tableInRange]

/-- A table whose entries are all letters is the table of a map of letters to letters. -/
theorem exists_map_of_inRange {T : Table} (h : tableInRange T = true) :
    ∃ f : Index → Index, ∀ x : Index, entry T x = Letter.ofIndex (f x) := by
  have := fun x => Letter.exists_index (tableInRange_iff.mp h x)
  exact ⟨fun x => (this x).choose, fun x => (this x).choose_spec⟩

theorem inRange_of_map {T : Table} (f : Index → Index)
    (h : ∀ x : Index, entry T x = Letter.ofIndex (f x)) : tableInRange T = true := by
  simp [tableInRange_iff, h]

/-- A table that holds the codes of `f` is valid when `f` is injective. -/
theorem validTable_of_map {T : Table} {f : Index → Index}
    (h : ∀ x : Index, entry T x = Letter.ofIndex (f x)) : validTable T = true ↔ Function.Injective f := by
  rw [validTable_iff]
  constructor
  · rintro ⟨-, hd⟩ i j hij
    by_contra hne
    exact hd i j hne (by rw [h, h, hij])
  · intro hf
    refine ⟨fun i => by simp [h], fun i j hne heq => hne (hf ?_)⟩
    rw [h, h] at heq
    exact Letter.ofIndex_inj.mp heq

/-- A valid table is the table of a permutation (spec/40_units.md R95). -/
theorem exists_perm_of_valid {T : Table} (h : validTable T = true) :
    ∃ σ : Equiv.Perm Index, ∀ x : Index, entry T x = Letter.ofIndex (σ x) := by
  obtain ⟨f, hf⟩ := exists_map_of_inRange (tableInRange_iff.mpr (validTable_iff.mp h).1)
  have hi : Function.Injective f := (validTable_of_map hf).mp h
  exact ⟨Equiv.ofBijective f (Finite.injective_iff_bijective.mp hi), fun x => by simp [hf]⟩

/-- The inverse of the table of a permutation is the table of the inverse permutation. -/
theorem entry_invertTable {T : Table} (σ : Equiv.Perm Index)
    (h : ∀ x : Index, entry T x = Letter.ofIndex (σ x)) (y : Index) :
    entry (invertTable T) y = Letter.ofIndex (σ.symm y) := by
  have hlen : T.toList.length = 26 := by simp
  have hget : ∀ (i : Nat) (hi : i < 26), T.toList[i]'(by omega) = Letter.ofIndex (σ ⟨i, hi⟩) := by
    intro i hi
    have := h ⟨i, hi⟩
    simpa [entry] using this
  have hmem : Letter.ofIndex y ∈ T.toList := by
    rw [List.mem_iff_getElem]
    exact ⟨(σ.symm y).val, by omega, by rw [hget _ (σ.symm y).isLt]; simp⟩
  have hlt : T.toList.idxOf (Letter.ofIndex y) < 26 := by
    have := List.idxOf_lt_length_of_mem hmem
    omega
  have hval := List.getElem_idxOf (x := Letter.ofIndex y) (xs := T.toList) (by omega)
  rw [hget _ hlt, Letter.ofIndex_inj] at hval
  have hsymm : σ.symm y = ⟨T.toList.idxOf (Letter.ofIndex y), hlt⟩ :=
    σ.symm_apply_eq.mpr hval.symm
  simp only [invertTable, entry_tableFrom]
  rw [hsymm]
  rfl

end Sys2Proof.Machine
end

