-- ==== Sys2Proof/Laws/Cipher.lean ====
section
/-! SUPPORT. The units on tables that hold permutations: a composition step of a table is a step of
its permutation, and the inverse table follows. -/

namespace Sys2Proof.Machine

@[simp] theorem entry_tableOf (σ : Permutation) (x : Index) : entry (tableOf σ) x = Letter.ofIndex (σ x) := by
  simp [tableOf]

theorem eq_tableOf {T : Table} {σ : Permutation} (h : ∀ x, entry T x = Letter.ofIndex (σ x)) : T = tableOf σ :=
  table_ext fun x => by simp [h]

theorem invertTable_tableOf (σ : Permutation) : invertTable (tableOf σ) = tableOf σ.symm :=
  table_ext fun x => by rw [entry_invertTable σ (entry_tableOf σ), entry_tableOf]

theorem validTable_tableOf (σ : Permutation) : validTable (tableOf σ) = true :=
  (validTable_of_map (entry_tableOf σ)).mpr σ.injective

/-- Being the inverse table of a permutation's table is holding the inverse permutation. -/
theorem isInverse_of_perm {T TI : Table} {σ : Permutation} (h : ∀ x, entry T x = Letter.ofIndex (σ x)) :
    IsInverse T TI ↔ ∀ y, entry TI y = Letter.ofIndex (σ.symm y) := by
  constructor
  · intro hi y
    exact hi _ _ (by rw [h]; simp)
  · intro hi x y hxy
    rw [h, Letter.ofIndex_inj] at hxy
    rw [hi, ← hxy]
    simp

theorem transposeLetter_eq_swap (a b x : Index) : transposeLetter a b x = Equiv.swap a b x := by
  rw [Equiv.swap_apply_def]; rfl

/-- `(σ ∘ (a b))⁻¹ = (a b) ∘ σ⁻¹` (spec/40_units.md R93). -/
theorem advance_symm_apply (σ : Permutation) (a b y : Index) :
    (advance σ a b).symm y = Equiv.swap a b (σ.symm y) := by
  simp [advance]

theorem entry_composeTable_perm {T : Table} {σ : Permutation} (h : ∀ x, entry T x = Letter.ofIndex (σ x))
    (a b x : Index) : entry (composeTable T a b) x = Letter.ofIndex (advance σ a b x) := by
  rw [entry_composeTable, h, transposeLetter_eq_swap]; rfl

theorem entry_composeInverse_perm {T TI : Table} {σ : Permutation}
    (h : ∀ x, entry T x = Letter.ofIndex (σ x)) (hi : ∀ y, entry TI y = Letter.ofIndex (σ.symm y))
    (a b y : Index) :
    entry (composeInverse T TI a b) y = Letter.ofIndex ((advance σ a b).symm y) := by
  rw [entry_composeInverse, h, h, hi, advance_symm_apply, Equiv.swap_apply_def]
  simp only [Letter.ofIndex_inj, Equiv.symm_apply_eq]
  split_ifs with h1 h2 <;> first | rfl | skip
  subst h1
  have : b = a := by simpa using h2
  simp [this]

end Sys2Proof.Machine
end

