-- ==== Sys2Proof/Laws/Memory.lean ====
section
/-! SUPPORT. The table space: read after write, what each operation leaves alone, and that every
operation keeps its form (`Memory.wf`, INV1 of spec/10_state.md R35). -/

namespace Sys2Proof.Machine

@[simp] theorem Memory.table_setTable_same (m : Memory) (T : Table) (s : TableSel) :
    (m.setTable T s).table s = T := by
  cases s <;> rfl

theorem Memory.table_setTable_other (m : Memory) (T : Table) {s s' : TableSel} (h : s' ≠ s) :
    (m.setTable T s).table s' = m.table s' := by
  cases s <;> cases s' <;> first | rfl | exact absurd rfl h

/-- Two table spaces are equal when every entry of every table is. -/
theorem Memory.ext_read {m n : Memory} (h : ∀ s i, tabRead m s i = tabRead n s i) : m = n := by
  have := fun s => table_ext (h s)
  cases m
  cases n
  congr
  · exact this .sigma
  · exact this .tau
  · exact this .sigmaInv
  · exact this .tauInv

@[simp] theorem tabRead_sigma (m : Memory) (i : Index) : tabRead m .sigma i = entry m.sigma i := rfl

@[simp] theorem tabRead_tau (m : Memory) (i : Index) : tabRead m .tau i = entry m.tau i := rfl

@[simp] theorem tabRead_sigmaInv (m : Memory) (i : Index) : tabRead m .sigmaInv i = entry m.sigmaInv i := rfl

@[simp] theorem tabRead_tauInv (m : Memory) (i : Index) : tabRead m .tauInv i = entry m.tauInv i := rfl

/-- One entry replaced, the others as before. -/
theorem entry_set (T : Table) (i x : Index) (v : Letter) :
    entry (T.set i.val v i.isLt) x = if x = i then v else entry T x := by
  simp only [entry, Fin.getElem_fin, Vector.getElem_set, Fin.ext_iff, eq_comm]

/-- What every entry reads after a write (spec/20_memory.md R53). -/
theorem tabRead_tabWrite (m : Memory) (s s' : TableSel) (i i' : Index) (v : Letter) :
    tabRead (tabWrite m s i v) s' i' = if s' = s ∧ i' = i then v else tabRead m s' i' := by
  unfold tabRead tabWrite
  by_cases hs : s' = s
  · subst hs
    simp [entry_set]
  · simp [Memory.table_setTable_other _ _ hs, hs]

@[simp] theorem Memory.evolve_sigma (m : Memory) (a b : Index) :
    (m.evolve a b).sigma = composeTable m.sigma a b := rfl

@[simp] theorem Memory.evolve_tau (m : Memory) (a b : Index) :
    (m.evolve a b).tau = composeTable m.tau a b := rfl

@[simp] theorem Memory.evolve_sigmaInv (m : Memory) (a b : Index) :
    (m.evolve a b).sigmaInv = composeInverse m.sigma m.sigmaInv a b := rfl

@[simp] theorem Memory.evolve_tauInv (m : Memory) (a b : Index) :
    (m.evolve a b).tauInv = composeInverse m.tau m.tauInv a b := rfl

@[simp] theorem Memory.writeInverses_sigma (m : Memory) : m.writeInverses.sigma = m.sigma := by
  simp only [Memory.writeInverses]

@[simp] theorem Memory.writeInverses_tau (m : Memory) : m.writeInverses.tau = m.tau := by
  simp only [Memory.writeInverses]

@[simp] theorem Memory.writeInverses_sigmaInv (m : Memory) :
    m.writeInverses.sigmaInv = invertTable m.sigma := by
  simp only [Memory.writeInverses]

@[simp] theorem Memory.writeInverses_tauInv (m : Memory) :
    m.writeInverses.tauInv = invertTable m.tau := by
  simp only [Memory.writeInverses]

@[simp] theorem Memory.reset_sigma : Memory.reset.sigma = identityTable := rfl

@[simp] theorem Memory.reset_tau : Memory.reset.tau = identityTable := rfl

@[simp] theorem Memory.reset_sigmaInv : Memory.reset.sigmaInv = identityTable := rfl

@[simp] theorem Memory.reset_tauInv : Memory.reset.tauInv = identityTable := rfl

/-- The form of the table space, entry by entry. -/
theorem Memory.wf_iff {m : Memory} :
    m.wf = true ↔ ∀ s i, Letter.isLetter (tabRead m s i) = true := by
  simp only [Memory.wf, Bool.and_eq_true, tableInRange_iff]
  constructor
  · rintro ⟨⟨⟨h1, h2⟩, h3⟩, h4⟩ s i
    cases s
    · exact h1 i
    · exact h2 i
    · exact h3 i
    · exact h4 i
  · exact fun h => ⟨⟨⟨h .sigma, h .tau⟩, h .sigmaInv⟩, h .tauInv⟩

theorem Memory.reset_wf : Memory.reset.wf = true := by
  rw [Memory.wf_iff]
  intro s i
  cases s <;> simp

/-- A write of a letter keeps the form (spec/20_memory.md R53). -/
theorem tabWrite_wf {m : Memory} (h : m.wf = true) (s : TableSel) (i : Index) {v : Letter}
    (hv : Letter.isLetter v = true) : (tabWrite m s i v).wf = true := by
  rw [Memory.wf_iff] at h ⊢
  intro s' i'
  rw [tabRead_tabWrite]
  split
  · exact hv
  · exact h s' i'

theorem composeTable_inRange {T : Table} (h : tableInRange T = true) (a b : Index) :
    tableInRange (composeTable T a b) = true := by
  rw [tableInRange_iff] at h ⊢
  intro x
  rw [entry_composeTable]
  exact h _

theorem composeInverse_inRange {TI : Table} (h : tableInRange TI = true) (T : Table) (a b : Index) :
    tableInRange (composeInverse T TI a b) = true := by
  rw [tableInRange_iff] at h ⊢
  intro y
  rw [entry_composeInverse]
  split
  · simp
  · split
    · simp
    · exact h y

theorem invertTable_inRange {T : Table} (h : validTable T = true) :
    tableInRange (invertTable T) = true := by
  obtain ⟨σ, hσ⟩ := exists_perm_of_valid h
  exact inRange_of_map (fun y => σ.symm y) (entry_invertTable σ hσ)

/-- EVOLVE keeps the form (spec/40_units.md R94). -/
theorem Memory.evolve_wf {m : Memory} (h : m.wf = true) (a b : Index) :
    (m.evolve a b).wf = true := by
  simp only [Memory.wf, Bool.and_eq_true] at h ⊢
  obtain ⟨⟨⟨h1, h2⟩, h3⟩, h4⟩ := h
  exact ⟨⟨⟨composeTable_inRange h1 a b, composeTable_inRange h2 a b⟩,
    composeInverse_inRange h3 _ a b⟩, composeInverse_inRange h4 _ a b⟩

/-- START's writes keep the form (spec/41_key_commands.md R112). -/
theorem Memory.writeInverses_wf {m : Memory} (h : m.wf = true) (hσ : validTable m.sigma = true)
    (hτ : validTable m.tau = true) : m.writeInverses.wf = true := by
  simp only [Memory.wf, Bool.and_eq_true, Memory.writeInverses_sigma, Memory.writeInverses_tau,
    Memory.writeInverses_sigmaInv, Memory.writeInverses_tauInv] at h ⊢
  obtain ⟨⟨⟨h1, h2⟩, -⟩, -⟩ := h
  exact ⟨⟨⟨h1, h2⟩, invertTable_inRange hσ⟩, invertTable_inRange hτ⟩

end Sys2Proof.Machine
end

