-- ==== Sys2Proof/Laws/State.lean ====
section
/-! SUPPORT. What each named update of State does to each field, one lemma a field, and what reset
leaves in each field. -/

namespace Sys2Proof.Machine

/-! ### `State.withMem` -/

@[simp] theorem State.withMem_mem (m : Memory) (s : State) : (s.withMem m).mem = m := rfl

@[simp] theorem State.withMem_armed (m : Memory) (s : State) : (s.withMem m).armed = s.armed := rfl

@[simp] theorem State.withMem_dir (m : Memory) (s : State) : (s.withMem m).dir = s.dir := rfl

@[simp] theorem State.withMem_phase (m : Memory) (s : State) : (s.withMem m).phase = s.phase := rfl

@[simp] theorem State.withMem_hold (m : Memory) (s : State) : (s.withMem m).hold = s.hold := rfl

@[simp] theorem State.withMem_fault (m : Memory) (s : State) : (s.withMem m).fault = s.fault := rfl

@[simp] theorem State.withMem_hostMoves (m : Memory) (s : State) :
    (s.withMem m).hostMoves = s.hostMoves := rfl

@[simp] theorem State.withMem_responses (m : Memory) (s : State) :
    (s.withMem m).responses = s.responses := rfl

/-! ### `State.respond` -/

@[simp] theorem State.respond_mem (r : RspWord) (s : State) : (s.respond r).mem = s.mem := rfl

@[simp] theorem State.respond_armed (r : RspWord) (s : State) : (s.respond r).armed = s.armed := rfl

@[simp] theorem State.respond_dir (r : RspWord) (s : State) : (s.respond r).dir = s.dir := rfl

@[simp] theorem State.respond_phase (r : RspWord) (s : State) : (s.respond r).phase = s.phase := rfl

@[simp] theorem State.respond_hold (r : RspWord) (s : State) : (s.respond r).hold = s.hold := rfl

@[simp] theorem State.respond_fault (r : RspWord) (s : State) : (s.respond r).fault = s.fault := rfl

@[simp] theorem State.respond_hostMoves (r : RspWord) (s : State) :
    (s.respond r).hostMoves = s.hostMoves := rfl

@[simp] theorem State.respond_responses (r : RspWord) (s : State) :
    (s.respond r).responses = s.responses ++ [r] := rfl

/-! ### `State.answerOk` -/

@[simp] theorem State.answerOk_mem (d : Data) (s : State) : (s.answerOk d).mem = s.mem := rfl

@[simp] theorem State.answerOk_armed (d : Data) (s : State) : (s.answerOk d).armed = s.armed := rfl

@[simp] theorem State.answerOk_dir (d : Data) (s : State) : (s.answerOk d).dir = s.dir := rfl

@[simp] theorem State.answerOk_phase (d : Data) (s : State) : (s.answerOk d).phase = s.phase := rfl

@[simp] theorem State.answerOk_hold (d : Data) (s : State) : (s.answerOk d).hold = s.hold := rfl

@[simp] theorem State.answerOk_fault (d : Data) (s : State) : (s.answerOk d).fault = s.fault := rfl

@[simp] theorem State.answerOk_hostMoves (d : Data) (s : State) :
    (s.answerOk d).hostMoves = s.hostMoves := rfl

@[simp] theorem State.answerOk_responses (d : Data) (s : State) :
    (s.answerOk d).responses = s.responses ++ [responseWord 0 d] := rfl

/-! ### `State.disarm` -/

@[simp] theorem State.disarm_mem (s : State) : (s.disarm).mem = s.mem := rfl

@[simp] theorem State.disarm_armed (s : State) : (s.disarm).armed = false := rfl

@[simp] theorem State.disarm_dir (s : State) : (s.disarm).dir = s.dir := rfl

@[simp] theorem State.disarm_phase (s : State) : (s.disarm).phase = false := rfl

@[simp] theorem State.disarm_hold (s : State) : (s.disarm).hold = 0 := rfl

@[simp] theorem State.disarm_fault (s : State) : (s.disarm).fault = s.fault := rfl

@[simp] theorem State.disarm_hostMoves (s : State) : (s.disarm).hostMoves = s.hostMoves := rfl

@[simp] theorem State.disarm_responses (s : State) : (s.disarm).responses = s.responses := rfl

/-! ### `State.latchFault` -/

@[simp] theorem State.latchFault_mem (c : ErrorCode) (s : State) :
    (s.latchFault c).mem = s.mem := rfl

@[simp] theorem State.latchFault_armed (c : ErrorCode) (s : State) :
    (s.latchFault c).armed = s.armed := rfl

@[simp] theorem State.latchFault_dir (c : ErrorCode) (s : State) :
    (s.latchFault c).dir = s.dir := rfl

@[simp] theorem State.latchFault_phase (c : ErrorCode) (s : State) :
    (s.latchFault c).phase = s.phase := rfl

@[simp] theorem State.latchFault_hold (c : ErrorCode) (s : State) :
    (s.latchFault c).hold = s.hold := rfl

@[simp] theorem State.latchFault_fault (c : ErrorCode) (s : State) :
    (s.latchFault c).fault = if s.fault = 0 then c.code else s.fault := rfl

@[simp] theorem State.latchFault_hostMoves (c : ErrorCode) (s : State) :
    (s.latchFault c).hostMoves = s.hostMoves := rfl

@[simp] theorem State.latchFault_responses (c : ErrorCode) (s : State) :
    (s.latchFault c).responses = s.responses := rfl

/-! ### `State.takeFault` -/

@[simp] theorem State.takeFault_mem (c : ErrorCode) (d : Data) (s : State) :
    (s.takeFault c d).mem = s.mem := rfl

@[simp] theorem State.takeFault_armed (c : ErrorCode) (d : Data) (s : State) :
    (s.takeFault c d).armed = false := rfl

@[simp] theorem State.takeFault_dir (c : ErrorCode) (d : Data) (s : State) :
    (s.takeFault c d).dir = s.dir := rfl

@[simp] theorem State.takeFault_phase (c : ErrorCode) (d : Data) (s : State) :
    (s.takeFault c d).phase = false := rfl

@[simp] theorem State.takeFault_hold (c : ErrorCode) (d : Data) (s : State) :
    (s.takeFault c d).hold = 0 := rfl

@[simp] theorem State.takeFault_fault (c : ErrorCode) (d : Data) (s : State) :
    (s.takeFault c d).fault = if s.fault = 0 then c.code else s.fault := rfl

@[simp] theorem State.takeFault_hostMoves (c : ErrorCode) (d : Data) (s : State) :
    (s.takeFault c d).hostMoves = s.hostMoves := rfl

@[simp] theorem State.takeFault_responses (c : ErrorCode) (d : Data) (s : State) :
    (s.takeFault c d).responses = s.responses ++ [responseWord c.code d] := rfl

/-! ### `State.evolve` -/

@[simp] theorem State.evolve_mem (a b : Index) (s : State) :
    (s.evolve a b).mem = s.mem.evolve a b := rfl

@[simp] theorem State.evolve_armed (a b : Index) (s : State) : (s.evolve a b).armed = s.armed := by
  rw [State.evolve, State.withMem_armed]

@[simp] theorem State.evolve_dir (a b : Index) (s : State) : (s.evolve a b).dir = s.dir := by
  rw [State.evolve, State.withMem_dir]

@[simp] theorem State.evolve_phase (a b : Index) (s : State) : (s.evolve a b).phase = s.phase := by
  rw [State.evolve, State.withMem_phase]

@[simp] theorem State.evolve_hold (a b : Index) (s : State) : (s.evolve a b).hold = s.hold := by
  rw [State.evolve, State.withMem_hold]

@[simp] theorem State.evolve_fault (a b : Index) (s : State) : (s.evolve a b).fault = s.fault := by
  rw [State.evolve, State.withMem_fault]

@[simp] theorem State.evolve_hostMoves (a b : Index) (s : State) :
    (s.evolve a b).hostMoves = s.hostMoves := by
  rw [State.evolve, State.withMem_hostMoves]

@[simp] theorem State.evolve_responses (a b : Index) (s : State) :
    (s.evolve a b).responses = s.responses := by
  rw [State.evolve, State.withMem_responses]

/-! ### `State.openMessage` -/

@[simp] theorem State.openMessage_mem (d : Direction) (s : State) :
    (s.openMessage d).mem = s.mem := rfl

@[simp] theorem State.openMessage_armed (d : Direction) (s : State) :
    (s.openMessage d).armed = true := rfl

@[simp] theorem State.openMessage_dir (d : Direction) (s : State) : (s.openMessage d).dir = d := rfl

@[simp] theorem State.openMessage_phase (d : Direction) (s : State) :
    (s.openMessage d).phase = false := rfl

@[simp] theorem State.openMessage_hold (d : Direction) (s : State) :
    (s.openMessage d).hold = 0 := rfl

@[simp] theorem State.openMessage_fault (d : Direction) (s : State) :
    (s.openMessage d).fault = s.fault := rfl

@[simp] theorem State.openMessage_hostMoves (d : Direction) (s : State) :
    (s.openMessage d).hostMoves = s.hostMoves := rfl

@[simp] theorem State.openMessage_responses (d : Direction) (s : State) :
    (s.openMessage d).responses = s.responses := rfl

/-! ### `State.holdFirst` -/

@[simp] theorem State.holdFirst_mem (p : Letter) (s : State) : (s.holdFirst p).mem = s.mem := rfl

@[simp] theorem State.holdFirst_armed (p : Letter) (s : State) :
    (s.holdFirst p).armed = s.armed := rfl

@[simp] theorem State.holdFirst_dir (p : Letter) (s : State) : (s.holdFirst p).dir = s.dir := rfl

@[simp] theorem State.holdFirst_phase (p : Letter) (s : State) : (s.holdFirst p).phase = true := rfl

@[simp] theorem State.holdFirst_hold (p : Letter) (s : State) : (s.holdFirst p).hold = p := rfl

@[simp] theorem State.holdFirst_fault (p : Letter) (s : State) :
    (s.holdFirst p).fault = s.fault := rfl

@[simp] theorem State.holdFirst_hostMoves (p : Letter) (s : State) :
    (s.holdFirst p).hostMoves = s.hostMoves := rfl

@[simp] theorem State.holdFirst_responses (p : Letter) (s : State) :
    (s.holdFirst p).responses = s.responses := rfl

/-! ### `State.closePair` -/

@[simp] theorem State.closePair_mem (s : State) : (s.closePair).mem = s.mem := rfl

@[simp] theorem State.closePair_armed (s : State) : (s.closePair).armed = s.armed := rfl

@[simp] theorem State.closePair_dir (s : State) : (s.closePair).dir = s.dir := rfl

@[simp] theorem State.closePair_phase (s : State) : (s.closePair).phase = false := rfl

@[simp] theorem State.closePair_hold (s : State) : (s.closePair).hold = 0 := rfl

@[simp] theorem State.closePair_fault (s : State) : (s.closePair).fault = s.fault := rfl

@[simp] theorem State.closePair_hostMoves (s : State) : (s.closePair).hostMoves = s.hostMoves := rfl

@[simp] theorem State.closePair_responses (s : State) : (s.closePair).responses = s.responses := rfl

/-! ### `State.resetBlock` -/

@[simp] theorem State.resetBlock_mem (s : State) : (s.resetBlock).mem = Memory.reset := rfl

@[simp] theorem State.resetBlock_armed (s : State) : (s.resetBlock).armed = false := rfl

@[simp] theorem State.resetBlock_dir (s : State) : (s.resetBlock).dir = .encipher := rfl

@[simp] theorem State.resetBlock_phase (s : State) : (s.resetBlock).phase = false := rfl

@[simp] theorem State.resetBlock_hold (s : State) : (s.resetBlock).hold = 0 := rfl

@[simp] theorem State.resetBlock_fault (s : State) : (s.resetBlock).fault = 0 := rfl

@[simp] theorem State.resetBlock_hostMoves (s : State) :
    (s.resetBlock).hostMoves = s.hostMoves := rfl

@[simp] theorem State.resetBlock_responses (s : State) :
    (s.resetBlock).responses = s.responses := rfl

/-! ### `State.offerCommand` -/

@[simp] theorem State.offerCommand_mem (w : CmdWord) (s : State) :
    (s.offerCommand w).mem = s.mem := rfl

@[simp] theorem State.offerCommand_armed (w : CmdWord) (s : State) :
    (s.offerCommand w).armed = s.armed := rfl

@[simp] theorem State.offerCommand_dir (w : CmdWord) (s : State) :
    (s.offerCommand w).dir = s.dir := rfl

@[simp] theorem State.offerCommand_phase (w : CmdWord) (s : State) :
    (s.offerCommand w).phase = s.phase := rfl

@[simp] theorem State.offerCommand_hold (w : CmdWord) (s : State) :
    (s.offerCommand w).hold = s.hold := rfl

@[simp] theorem State.offerCommand_fault (w : CmdWord) (s : State) :
    (s.offerCommand w).fault = s.fault := rfl

@[simp] theorem State.offerCommand_hostMoves (w : CmdWord) (s : State) :
    (s.offerCommand w).hostMoves = .command w :: s.hostMoves := rfl

@[simp] theorem State.offerCommand_responses (w : CmdWord) (s : State) :
    (s.offerCommand w).responses = s.responses := rfl

/-! ### `State.reset` -/

@[simp] theorem State.reset_mem : State.reset.mem = Memory.reset := rfl

@[simp] theorem State.reset_armed : State.reset.armed = false := rfl

@[simp] theorem State.reset_dir : State.reset.dir = .encipher := rfl

@[simp] theorem State.reset_phase : State.reset.phase = false := rfl

@[simp] theorem State.reset_hold : State.reset.hold = 0 := rfl

@[simp] theorem State.reset_fault : State.reset.fault = 0 := rfl

@[simp] theorem State.reset_hostMoves : State.reset.hostMoves = [] := rfl

@[simp] theorem State.reset_responses : State.reset.responses = [] := rfl

/-- Two states are equal when their eight fields are. -/
theorem State.eq_of_fields {s t : State} (hmem : s.mem = t.mem) (harmed : s.armed = t.armed)
    (hdir : s.dir = t.dir) (hphase : s.phase = t.phase) (hhold : s.hold = t.hold)
    (hfault : s.fault = t.fault) (hmoves : s.hostMoves = t.hostMoves)
    (hresponses : s.responses = t.responses) : s = t := by
  cases s
  cases t
  subst hmem harmed hdir hphase hhold hfault hmoves hresponses
  rfl

end Sys2Proof.Machine
end

