-- ==== Sys2Proof/Laws/Commands.lean ====
section
/-! SUPPORT. Everything a command can do, said once: `Effect i s t` lists the ways command `i` takes
state `s` to state `t`, with the conditions of each; `exec_effect` is the inversion of `exec`. -/

namespace Sys2Proof.Machine

/-- The ways a command takes `s` to a next state, one constructor each. -/
inductive Effect (s : State) : Instr → State → Prop where
  | nop : Effect s .nop (s.answerOk 0)
  | rst : Effect s .rst (s.resetBlock.answerOk 0)
  | rdc {c : BitVec 5} {d : Data} (h : controlRegister? c s = some d) : Effect s (.rdc c) (s.answerOk d)
  | rdcIllegal {c : BitVec 5} (h : controlRegister? c s = none) :
      Effect s (.rdc c) (s.takeFault .illegalCommand 0)
  | ldk {t : TableSel} (ht : t.isForward = true) (hs : s.armed = false) (i j : Index) :
      Effect s (.ldk t (Letter.ofIndex i) (Letter.ofIndex j))
        ((s.withMem (tabWrite s.mem t i (Letter.ofIndex j))).answerOk 0)
  | ldkIllegal {t : TableSel} {i v : Letter} (ht : t.isForward = false) :
      Effect s (.ldk t i v) (s.takeFault .illegalCommand 0)
  | ldkArmed {t : TableSel} {i v : Letter} (ht : t.isForward = true) (hs : s.armed = true) :
      Effect s (.ldk t i v) (s.takeFault .sequenceError 0)
  | ldkRange {t : TableSel} {i v : Letter} (ht : t.isForward = true) (hs : s.armed = false)
      (h : 25 < i.toNat ∨ 25 < v.toNat) : Effect s (.ldk t i v) (s.takeFault .invalidPermutation 0)
  | rdt (t : TableSel) (i : Index) :
      Effect s (.rdt t (Letter.ofIndex i)) (s.answerOk (Letter.toData (tabRead s.mem t i)))
  | rdtRange {t : TableSel} {i : Letter} (h : 25 < i.toNat) :
      Effect s (.rdt t i) (s.takeFault .invalidLetter 0)
  | start (d : Direction) (hσ : validTable s.mem.sigma = true) (hτ : validTable s.mem.tau = true) :
      Effect s (.start d) (((s.withMem s.mem.writeInverses).openMessage d).answerOk 0)
  | startInvalid (d : Direction) (h : validTable s.mem.sigma = false ∨ validTable s.mem.tau = false) :
      Effect s (.start d) (s.takeFault .invalidPermutation
        (startFaultData (!validTable s.mem.sigma) (!validTable s.mem.tau)))
  | letterIdle {x : Letter} (hs : s.armed = false) : Effect s (.letter x) (s.takeFault .sequenceError 0)
  | letterRange {x : Letter} (hs : s.armed = true) (h : 25 < x.toNat) :
      Effect s (.letter x) (s.takeFault .invalidLetter 0)
  | letterFirst (hs : s.armed = true) (hp : s.phase = false) (x : Index) :
      Effect s (.letter (Letter.ofIndex x)) (letterFirst x s)
  | letterSecond (hs : s.armed = true) (hp : s.phase = true) (x h p : Index)
      (hh : s.hold = Letter.ofIndex h) (hpl : plainLetter x s = Letter.ofIndex p) :
      Effect s (.letter (Letter.ofIndex x)) (letterSecond x h p s)
  | endMsg (hs : s.armed = true) : Effect s .endMsg (s.disarm.answerOk (endData s.phase))
  | endIdle (hs : s.armed = false) : Effect s .endMsg (s.takeFault .sequenceError 0)
  | comp (hs : s.armed = true) (hp : s.phase = false) (a b : Index) :
      Effect s (.comp (Letter.ofIndex a) (Letter.ofIndex b)) ((s.evolve a b).answerOk 0)
  | compSequence {a b : Letter} (h : s.armed = false ∨ s.phase = true) :
      Effect s (.comp a b) (s.takeFault .sequenceError 0)
  | compRange {a b : Letter} (hs : s.armed = true) (hp : s.phase = false)
      (h : 25 < a.toNat ∨ 25 < b.toNat) : Effect s (.comp a b) (s.takeFault .invalidLetter 0)

/-- The state of a next answer. -/
theorem next_inj {s t : State} (h : (.next s : Answer) = .next t) : t = s := by
  injection h with h
  exact h.symm

theorem execNop_effect {s t : State} (h : execNop s = .next t) : Effect s .nop t := by
  obtain rfl := next_inj h
  exact .nop

theorem execRst_effect {s t : State} (h : execRst s = .next t) : Effect s .rst t := by
  obtain rfl := next_inj h
  exact .rst

theorem execRdc_effect {c : BitVec 5} {s t : State} (h : execRdc c s = .next t) :
    Effect s (.rdc c) t := by
  unfold execRdc at h
  split at h <;> obtain rfl := next_inj h
  · exact .rdcIllegal ‹_›
  · exact .rdc ‹_›

theorem execLdk_effect {k : TableSel} {i v : Letter} {s t : State} (h : execLdk k i v s = .next t) :
    Effect s (.ldk k i v) t := by
  unfold execLdk at h
  split at h
  · obtain rfl := next_inj h
    exact .ldkIllegal (by simpa using ‹(!k.isForward) = true›)
  rename_i hk
  have hk : k.isForward = true := by simpa using hk
  split at h
  · obtain rfl := next_inj h
    exact .ldkArmed hk ‹_›
  rename_i hs
  have hs : s.armed = false := by simpa using hs
  split at h
  · rename_i j hi hv
    obtain rfl := next_inj h
    obtain ⟨j', rfl⟩ := Letter.exists_index hv
    rw [Letter.index?_eq_some] at hi
    subst hi
    exact .ldk hk hs j j'
  · rename_i hno
    obtain rfl := next_inj h
    refine .ldkRange hk hs ?_
    by_cases hi : 25 < i.toNat
    · exact .inl hi
    · refine .inr (Letter.isLetter_eq_false.mp (Bool.eq_false_iff.mpr fun hv => ?_))
      obtain ⟨j, rfl⟩ := Letter.exists_index (Letter.isLetter_iff.mpr (Nat.not_lt.mp hi))
      exact hno j (by simp) hv

theorem execRdt_effect {k : TableSel} {i : Letter} {s t : State} (h : execRdt k i s = .next t) :
    Effect s (.rdt k i) t := by
  unfold execRdt at h
  split at h <;> obtain rfl := next_inj h
  · exact .rdtRange (Letter.index?_eq_none.mp ‹_›)
  · rename_i hi
    rw [Letter.index?_eq_some] at hi
    subst hi
    exact .rdt k _

theorem execStart_effect {d : Direction} {s t : State} (h : execStart d s = .next t) :
    Effect s (.start d) t := by
  unfold execStart at h
  split at h
  · obtain rfl := next_inj h
    exact .startInvalid d (by simpa using ‹(!validTable s.mem.sigma || !validTable s.mem.tau) = true›)
  · rename_i hv
    obtain rfl := next_inj h
    simp only [Bool.or_eq_true, Bool.not_eq_true', not_or, Bool.not_eq_false] at hv
    exact .start d hv.1 hv.2

theorem execLetter_effect {x : Letter} {s t : State} (h : execLetter x s = .next t) :
    Effect s (.letter x) t := by
  unfold execLetter at h
  split at h
  · obtain rfl := next_inj h
    exact .letterIdle (by simpa using ‹(!s.armed) = true›)
  rename_i hs
  have hs : s.armed = true := by simpa using hs
  split at h
  · obtain rfl := next_inj h
    exact .letterRange hs (Letter.index?_eq_none.mp ‹_›)
  rename_i k hx
  rw [Letter.index?_eq_some] at hx
  subst hx
  split at h
  · obtain rfl := next_inj h
    exact .letterFirst hs (by simpa using ‹(!s.phase) = true›) k
  rename_i hp
  have hp : s.phase = true := by simpa using hp
  split at h
  · rename_i a b ha hb
    obtain rfl := next_inj h
    exact .letterSecond hs hp k a b (Letter.index?_eq_some.mp ha) (Letter.index?_eq_some.mp hb)
  · cases h

theorem execEndMsg_effect {s t : State} (h : execEndMsg s = .next t) : Effect s .endMsg t := by
  unfold execEndMsg at h
  split at h <;> obtain rfl := next_inj h
  · exact .endIdle (by simpa using ‹(!s.armed) = true›)
  · exact .endMsg (by simpa using ‹¬(!s.armed) = true›)

theorem execComp_effect {a b : Letter} {s t : State} (h : execComp a b s = .next t) :
    Effect s (.comp a b) t := by
  unfold execComp at h
  split at h
  · obtain rfl := next_inj h
    exact .compSequence (by simpa using ‹(!s.armed || s.phase) = true›)
  rename_i hs
  simp only [Bool.or_eq_true, Bool.not_eq_true', not_or, Bool.not_eq_false, Bool.not_eq_true] at hs
  split at h
  · rename_i i j hi hj
    obtain rfl := next_inj h
    rw [Letter.index?_eq_some] at hi hj
    subst hi hj
    exact .comp hs.1 hs.2 i j
  · rename_i hno
    obtain rfl := next_inj h
    refine .compRange hs.1 hs.2 ?_
    by_cases hi : 25 < a.toNat
    · exact .inl hi
    · obtain ⟨i, rfl⟩ := Letter.exists_index (Letter.isLetter_iff.mpr (Nat.not_lt.mp hi))
      refine .inr (Letter.index?_eq_none.mp ?_)
      cases hj : Letter.index? b with
      | none => rfl
      | some j => exact (hno i j (by simp) hj).elim

/-! ### Forward: what `exec` answers on each path, in named updates -/

theorem exec_rdc_illegal {c : BitVec 5} (s : State) (h : 2 < c.toNat) :
    exec (.rdc c) s = .next (s.takeFault .illegalCommand 0) := by
  have : controlRegister? c s = none := by
    unfold controlRegister?
    split_ifs <;> simp_all
  simp only [exec, execRdc, this]

theorem exec_ldk_ok {t : TableSel} {s : State} (ht : t.isForward = true) (hs : s.armed = false)
    (i j : Index) :
    exec (.ldk t (Letter.ofIndex i) (Letter.ofIndex j)) s =
      .next ((s.withMem (tabWrite s.mem t i (Letter.ofIndex j))).answerOk 0) := by
  simp [exec, execLdk, ht, hs]

theorem exec_ldk_armed {t : TableSel} {s : State} (ht : t.isForward = true) (hs : s.armed = true)
    (i v : Letter) : exec (.ldk t i v) s = .next (s.takeFault .sequenceError 0) := by
  simp [exec, execLdk, ht, hs]

theorem exec_ldk_range {t : TableSel} {s : State} {i v : Letter} (ht : t.isForward = true)
    (hs : s.armed = false) (h : 25 < i.toNat ∨ 25 < v.toNat) :
    exec (.ldk t i v) s = .next (s.takeFault .invalidPermutation 0) := by
  simp only [exec, execLdk, ht, hs, Bool.not_true, Bool.false_eq_true, if_false]
  rcases h with h | h
  · rw [Letter.index?_eq_none.mpr h]
  · rw [Letter.isLetter_eq_false.mpr h]
    cases Letter.index? i <;> rfl

theorem exec_rdt_ok (t : TableSel) (i : Index) (s : State) :
    exec (.rdt t (Letter.ofIndex i)) s = .next (s.answerOk (Letter.toData (tabRead s.mem t i))) := by
  simp [exec, execRdt]

theorem exec_rdt_range (t : TableSel) {i : Letter} (s : State) (h : 25 < i.toNat) :
    exec (.rdt t i) s = .next (s.takeFault .invalidLetter 0) := by
  simp [exec, execRdt, Letter.index?_eq_none.mpr h]

theorem exec_start_ok (d : Direction) {s : State} (hσ : validTable s.mem.sigma = true)
    (hτ : validTable s.mem.tau = true) :
    exec (.start d) s = .next (((s.withMem s.mem.writeInverses).openMessage d).answerOk 0) := by
  simp [exec, execStart, hσ, hτ]

theorem exec_start_invalid (d : Direction) {s : State}
    (h : validTable s.mem.sigma = false ∨ validTable s.mem.tau = false) :
    exec (.start d) s = .next (s.takeFault .invalidPermutation
      (startFaultData (!validTable s.mem.sigma) (!validTable s.mem.tau))) := by
  rcases h with h | h <;> simp [exec, execStart, h]

theorem exec_letter_idle (x : Letter) {s : State} (hs : s.armed = false) :
    exec (.letter x) s = .next (s.takeFault .sequenceError 0) := by
  simp [exec, execLetter, hs]

theorem exec_letter_range {x : Letter} {s : State} (hs : s.armed = true) (h : 25 < x.toNat) :
    exec (.letter x) s = .next (s.takeFault .invalidLetter 0) := by
  simp [exec, execLetter, hs, Letter.index?_eq_none.mpr h]

theorem exec_letter_first (x : Index) {s : State} (hs : s.armed = true) (hp : s.phase = false) :
    exec (.letter (Letter.ofIndex x)) s = .next (letterFirst x s) := by
  simp [exec, execLetter, hs, hp]

theorem exec_letter_second (x : Index) {h p : Index} {s : State} (hs : s.armed = true)
    (hp : s.phase = true) (hh : s.hold = Letter.ofIndex h) (hpl : plainLetter x s = Letter.ofIndex p) :
    exec (.letter (Letter.ofIndex x)) s = .next (letterSecond x h p s) := by
  simp [exec, execLetter, hs, hp, hh, hpl]

theorem exec_end_ok {s : State} (hs : s.armed = true) :
    exec .endMsg s = .next (s.disarm.answerOk (endData s.phase)) := by
  simp [exec, execEndMsg, hs]

theorem exec_end_idle {s : State} (hs : s.armed = false) :
    exec .endMsg s = .next (s.takeFault .sequenceError 0) := by
  simp [exec, execEndMsg, hs]

theorem exec_comp_ok (a b : Index) {s : State} (hs : s.armed = true) (hp : s.phase = false) :
    exec (.comp (Letter.ofIndex a) (Letter.ofIndex b)) s = .next ((s.evolve a b).answerOk 0) := by
  simp [exec, execComp, hs, hp]

theorem exec_comp_sequence (a b : Letter) {s : State} (h : s.armed = false ∨ s.phase = true) :
    exec (.comp a b) s = .next (s.takeFault .sequenceError 0) := by
  rcases h with h | h <;> simp [exec, execComp, h]

theorem exec_comp_range {a b : Letter} {s : State} (hs : s.armed = true) (hp : s.phase = false)
    (h : 25 < a.toNat ∨ 25 < b.toNat) :
    exec (.comp a b) s = .next (s.takeFault .invalidLetter 0) := by
  simp only [exec, execComp, hs, hp, Bool.not_true, Bool.or_false, Bool.false_eq_true, if_false]
  rcases h with h | h
  · rw [Letter.index?_eq_none.mpr h]
  · rw [Letter.index?_eq_none.mpr h]
    cases Letter.index? a <;> rfl

/-! ### Inversion -/

/-- The inversion of `exec`: a next state comes about in one of the listed ways. -/
theorem exec_effect {i : Instr} {s t : State} (h : exec i s = .next t) : Effect s i t := by
  cases i with
  | nop => exact execNop_effect h
  | rst => exact execRst_effect h
  | rdc c => exact execRdc_effect h
  | ldk k i v => exact execLdk_effect h
  | rdt k i => exact execRdt_effect h
  | start d => exact execStart_effect h
  | letter x => exact execLetter_effect h
  | endMsg => exact execEndMsg_effect h
  | comp a b => exact execComp_effect h

/-- The inversion of `runWord`: the decoded command's effect, or the fault of an illegal word. -/
theorem runWord_effect {w : CmdWord} {s t : State} (h : runWord w s = .next t) :
    (∃ i, decode w = some i ∧ Effect s i t) ∨
      (decode w = none ∧ t = s.takeFault .illegalCommand 0) := by
  unfold runWord at h
  cases hd : decode w with
  | none =>
    rw [hd] at h
    cases h
    exact .inr ⟨rfl, rfl⟩
  | some i =>
    rw [hd] at h
    exact .inl ⟨i, rfl, exec_effect h⟩

/-- No command is refused: each has its meaning. -/
theorem exec_not_refused (i : Instr) (s : State) (r : Refusal) : exec i s ≠ .refused r := by
  intro h
  cases i <;> simp only [exec] at h
  case nop => cases h
  case rst => cases h
  case rdc => unfold execRdc at h; split at h <;> cases h
  case ldk => unfold execLdk at h; repeat' split at h
              all_goals cases h
  case rdt => unfold execRdt at h; split at h <;> cases h
  case start => unfold execStart at h; split at h <;> cases h
  case letter => unfold execLetter at h; repeat' split at h
                 all_goals cases h
  case endMsg => unfold execEndMsg at h; split at h <;> cases h
  case comp => unfold execComp at h; repeat' split at h
               all_goals cases h

end Sys2Proof.Machine
end

