-- ==== Sys2Proof/Laws/Decode.lean ====
section
/-! SUPPORT. The field layout of a command word: its bits, its fields, and when a row of the opcode
map accepts it, said in fields. -/

namespace Sys2Proof

/-- Which field each bit of a command word is (spec/30_encoding.md R70). -/
theorem getLsbD_commandWord (op : BitVec 4) (sel : BitVec 2) (a b : BitVec 5) (i : Nat) :
    (commandWord op sel a b).getLsbD i =
      if i < 5 then b.getLsbD i
      else if i < 10 then a.getLsbD (i - 5)
      else if i < 12 then sel.getLsbD (i - 10)
      else op.getLsbD (i - 12) := by
  unfold commandWord
  rw [BitVec.getLsbD_append, BitVec.getLsbD_append, BitVec.getLsbD_append]
  by_cases h1 : i < 5
  · simp [h1]
  by_cases h2 : i < 10
  · simp [h1, h2, show i - 5 < 5 by omega]
  by_cases h3 : i < 12
  · simp [h1, h2, h3, show ¬ i - 5 < 5 by omega, show i - 5 - 5 < 2 by omega]
    congr 1
  · simp [h1, h2, h3, show ¬ i - 5 < 5 by omega, show ¬ i - 5 - 5 < 2 by omega]
    congr 1

@[simp] theorem fieldOp_commandWord (op : BitVec 4) (sel : BitVec 2) (a b : BitVec 5) :
    fieldOp (commandWord op sel a b) = op := by
  apply BitVec.eq_of_getLsbD_eq
  intro i hi
  rw [fieldOp, BitVec.getLsbD_extractLsb', getLsbD_commandWord]
  interval_cases i <;> simp

@[simp] theorem fieldSel_commandWord (op : BitVec 4) (sel : BitVec 2) (a b : BitVec 5) :
    fieldSel (commandWord op sel a b) = sel := by
  apply BitVec.eq_of_getLsbD_eq
  intro i hi
  rw [fieldSel, BitVec.getLsbD_extractLsb', getLsbD_commandWord]
  interval_cases i <;> simp

@[simp] theorem fieldA_commandWord (op : BitVec 4) (sel : BitVec 2) (a b : BitVec 5) :
    fieldA (commandWord op sel a b) = a := by
  apply BitVec.eq_of_getLsbD_eq
  intro i hi
  rw [fieldA, BitVec.getLsbD_extractLsb', getLsbD_commandWord]
  interval_cases i <;> simp

@[simp] theorem fieldB_commandWord (op : BitVec 4) (sel : BitVec 2) (a b : BitVec 5) :
    fieldB (commandWord op sel a b) = b := by
  apply BitVec.eq_of_getLsbD_eq
  intro i hi
  rw [fieldB, BitVec.getLsbD_extractLsb', getLsbD_commandWord]
  interval_cases i <;> simp

/-- A word is its four fields. -/
theorem commandWord_fields (w : CmdWord) :
    commandWord (fieldOp w) (fieldSel w) (fieldA w) (fieldB w) = w := by
  apply BitVec.eq_of_getLsbD_eq
  intro i hi
  rw [getLsbD_commandWord, fieldOp, fieldSel, fieldA, fieldB]
  simp only [BitVec.getLsbD_extractLsb']
  interval_cases i <;> simp

theorem commandWord_and (op op' : BitVec 4) (sel sel' : BitVec 2) (a a' b b' : BitVec 5) :
    commandWord op sel a b &&& commandWord op' sel' a' b' =
      commandWord (op &&& op') (sel &&& sel') (a &&& a') (b &&& b') := by
  apply BitVec.eq_of_getLsbD_eq
  intro i hi
  rw [BitVec.getLsbD_and, getLsbD_commandWord, getLsbD_commandWord, getLsbD_commandWord]
  simp only [BitVec.getLsbD_and]
  split_ifs <;> rfl

theorem commandWord_inj {op op' : BitVec 4} {sel sel' : BitVec 2} {a a' b b' : BitVec 5} :
    commandWord op sel a b = commandWord op' sel' a' b' ↔
      op = op' ∧ sel = sel' ∧ a = a' ∧ b = b' := by
  refine ⟨fun h => ?_, by rintro ⟨rfl, rfl, rfl, rfl⟩; rfl⟩
  exact ⟨by simpa using congrArg fieldOp h, by simpa using congrArg fieldSel h,
    by simpa using congrArg fieldA h, by simpa using congrArg fieldB h⟩

/-- When a row accepts a word, field by field. -/
theorem accepts_iff_fields (op : Opcode) (p1 m1 : BitVec 4) (p2 m2 : BitVec 2)
    (p3 m3 p4 m4 : BitVec 5) (w : CmdWord) :
    (OpcodeRow.mk op (commandWord p1 p2 p3 p4) (commandWord m1 m2 m3 m4)).accepts w = true ↔
      fieldOp w &&& m1 = p1 ∧ fieldSel w &&& m2 = p2 ∧ fieldA w &&& m3 = p3 ∧ fieldB w &&& m4 = p4 := by
  rw [OpcodeRow.accepts, beq_iff_eq]
  conv_lhs => lhs; rw [← commandWord_fields w]
  rw [commandWord_and, commandWord_inj]

/-- The opcode map with its patterns and masks split into fields. -/
theorem opcodeMap_fields : opcodeMap =
    [ ⟨.nop, commandWord 0 0 0 0, commandWord 15 3 31 31⟩,
      ⟨.rst, commandWord 1 0 0 0, commandWord 15 3 31 31⟩,
      ⟨.rdc, commandWord 2 0 0 0, commandWord 15 3 31 0⟩,
      ⟨.ldk, commandWord 3 0 0 0, commandWord 15 2 0 0⟩,
      ⟨.rdt, commandWord 4 0 0 0, commandWord 15 0 0 31⟩,
      ⟨.start, commandWord 5 0 0 0, commandWord 15 3 31 30⟩,
      ⟨.letter, commandWord 6 0 0 0, commandWord 15 3 31 0⟩,
      ⟨.endMsg, commandWord 7 0 0 0, commandWord 15 3 31 31⟩,
      ⟨.comp, commandWord 8 0 0 0, commandWord 15 3 0 0⟩ ] := by
  decide

@[simp] theorem TableSel.ofCode_code (s : TableSel) : TableSel.ofCode s.code = s := by
  cases s <;> decide

theorem TableSel.code_ofCode (c : BitVec 2) : (TableSel.ofCode c).code = c := by
  revert c
  decide

@[simp] theorem Direction.ofBit_bit (d : Direction) : Direction.ofBit d.bit = d := by
  cases d <;> rfl

@[simp] theorem Direction.bit_ofBit (b : Bool) : (Direction.ofBit b).bit = b := by
  cases b <;> rfl

end Sys2Proof
end

