-- ==== Sys2Proof/Laws/Invariants.lean ====
section
/-! SUPPORT. What the invariants look at, and what they say of a letter that LET reads. -/

namespace Sys2Proof.Machine

/-- The invariants look at the tables, `ARMED`, `PHASE`, `HOLD` and `FAULT` alone. -/
theorem inv_congr {s t : State} (h : s.Inv) (h1 : t.mem = s.mem) (h2 : t.armed = s.armed)
    (h3 : t.phase = s.phase) (h4 : t.hold = s.hold) (h5 : t.fault = s.fault) : t.Inv := by
  simp only [State.Inv, State.InRange, State.ArmedIsValid, State.IdleIsClean, State.InversesAreValid,
    h1, h2, h3, h4, h5] at *
  exact h

/-- A fault of a code that is raised keeps the invariants. -/
theorem inv_takeFault {s : State} (h : s.Inv) (c : ErrorCode) (d : Data) (hc : c ≠ .lengthMismatch) :
    (s.takeFault c d).Inv := by
  obtain ⟨⟨h1, h2, h3⟩, h4, h5, h6⟩ := h
  refine ⟨⟨by simpa using h1, by simp [Letter.isLetter], ?_⟩, by simp [State.ArmedIsValid],
    by simp [State.IdleIsClean], by simpa [State.InversesAreValid] using h6⟩
  simp
  split
  · cases c <;> simp [ErrorCode.code]
  · exact h3

theorem letterOut_isLetter {s : State} (h : s.mem.wf = true) (x : Index) :
    Letter.isLetter (letterOut x s) = true :=
  Memory.wf_iff.mp h _ _

theorem plainLetter_isLetter {s : State} (h : s.mem.wf = true) (x : Index) :
    Letter.isLetter (plainLetter x s) = true := by
  unfold plainLetter
  split
  · simp
  · exact letterOut_isLetter h x

/-- A command that completes answers exactly one word and leaves the host's moves alone. -/
theorem effect_responses {s t : State} {i : Instr} (e : Effect s i t) :
    (∃ r, t.responses = s.responses ++ [r]) ∧ t.hostMoves = s.hostMoves := by
  cases e <;> simp [letterFirst, letterSecond]

@[simp] theorem statOf_responseWord (c : BitVec 4) (d : Data) : statOf (responseWord c d) = c := by
  apply BitVec.eq_of_getLsbD_eq
  intro i hi
  rw [statOf, BitVec.getLsbD_extractLsb', responseWord, BitVec.getLsbD_append]
  simp [hi]

end Sys2Proof.Machine
end

