-- ==== Sys2Proof/Laws/PerInstr.lean ====
section
/-! SUPPORT. The per-instruction family `EncodesToItsRow`: the word of a well-formed command satisfies
the row of the opcode map (spec/30_encoding.md R73) that has its name. -/

namespace Sys2Proof.Laws.EncodesToItsRow

/-- The row of R73 that names a command. -/
def row : Instr → OpcodeRow
  | .nop => ⟨.nop, 0x0000, 0xFFFF⟩
  | .rst => ⟨.rst, 0x1000, 0xFFFF⟩
  | .rdc _ => ⟨.rdc, 0x2000, 0xFFE0⟩
  | .ldk _ _ _ => ⟨.ldk, 0x3000, 0xF800⟩
  | .rdt _ _ => ⟨.rdt, 0x4000, 0xF01F⟩
  | .start _ => ⟨.start, 0x5000, 0xFFFE⟩
  | .letter _ => ⟨.letter, 0x6000, 0xFFE0⟩
  | .endMsg => ⟨.endMsg, 0x7000, 0xFFFF⟩
  | .comp _ _ => ⟨.comp, 0x8000, 0xFC00⟩

/-- The word of a well-formed command satisfies its row, and that row is in the opcode map. -/
def Statement (i : Instr) : Prop :=
  i.wf = true → row i ∈ opcodeMap ∧ (row i).accepts (encode i) = true

theorem row_mem (i : Instr) : row i ∈ opcodeMap := by
  cases i <;> simp [row, opcodeMap]

theorem nop : Statement .nop := fun _ => by decide

theorem rst : Statement .rst := fun _ => by decide

theorem rdc (c : BitVec 5) : Statement (.rdc c) := by
  refine fun _ => ⟨row_mem _, ?_⟩
  revert c
  decide

theorem ldk (t : TableSel) (i v : Letter) : Statement (.ldk t i v) := by
  intro h
  refine ⟨row_mem _, ?_⟩
  have key : ∀ c : BitVec 2, c = 0 ∨ c = 1 → (row (.ldk t i v)).accepts (commandWord 3 c i v) = true := by
    intro c hc
    have h0 : row (.ldk t i v) = ⟨.ldk, commandWord 3 0 0 0, commandWord 15 2 0 0⟩ := by
      simp only [row]; decide
    rw [h0, accepts_iff_fields]
    rcases hc with rfl | rfl <;> simp
  cases t with
  | sigma => exact key _ (.inl rfl)
  | tau => exact key _ (.inr rfl)
  | sigmaInv => cases h
  | tauInv => cases h

theorem rdt (s : TableSel) (i : Letter) : Statement (.rdt s i) := by
  refine fun _ => ⟨row_mem _, ?_⟩
  cases s <;> revert i <;> decide

theorem start (d : Direction) : Statement (.start d) := by
  refine fun _ => ⟨row_mem _, ?_⟩
  cases d <;> decide

theorem letter (x : Letter) : Statement (.letter x) := by
  refine fun _ => ⟨row_mem _, ?_⟩
  revert x
  decide

theorem endMsg : Statement .endMsg := fun _ => by decide

theorem comp (a b : Letter) : Statement (.comp a b) := by
  refine fun _ => ⟨row_mem _, ?_⟩
  revert a b
  decide

end Sys2Proof.Laws.EncodesToItsRow
end

