-- ==== Sys2Proof/Laws/Run.lean ====
section
/-! SUPPORT. Runs of command words, one word and one piece at a time. -/

namespace Sys2Proof.Machine

theorem runCommands_cons {w : CmdWord} {ws : List CmdWord} {s t : State} (h : runWord w s = .next t) :
    runCommands (w :: ws) s = runCommands ws t := by
  simp [runCommands, h]

theorem runCommands_append {ws : List CmdWord} {s t : State} (h : runCommands ws s = .next t)
    (vs : List CmdWord) : runCommands (ws ++ vs) s = runCommands vs t := by
  induction ws generalizing s with
  | nil =>
    obtain rfl := next_inj h
    rfl
  | cons w ws ih =>
    simp only [List.cons_append, runCommands] at h ⊢
    cases hr : runWord w s with
    | next u => rw [hr] at h; exact ih h
    | fault r => rw [hr] at h; simp at h
    | refused r => rw [hr] at h; simp at h

end Sys2Proof.Machine
end

