-- ==== Sys2Proof/Tests/Slice0.lean ====
section
/-! SUPPORT. The model's own tests, expected values from spec/95_test_vectors.md (V1 to V18, P1 to P5) and
the examples of the rules; then a witness for every statement that has hypotheses. -/

namespace Sys2Proof.Machine.Tests

/-! ### Small states -/

/-- A table written as its 26 letters (spec/00_scope.md R8). -/
def tableOfText (s : String) : Table :=
  tableFrom fun i => (((s.toList[i.val]?).bind letterOfChar?).map Letter.ofIndex).getD 0

/-- `KQ` of spec/95_test_vectors.md. -/
def kq : Table := tableOfText "QWERTYUIOPASDFGHJKLZXCVBNM"

/-- The inverse of `KQ`, as spec/95_test_vectors.md writes it. -/
def kqInv : Table := tableOfText "KXVMCNOPHQRSZYIJADLEGWBUFT"

/-- `KZ` of spec/95_test_vectors.md, its own inverse. -/
def kz : Table := tableOfText "ZYXWVUTSRQPONMLKJIHGFEDCBA"

/-- Tables as they are while a message under the key `KQ`/`KZ` is open. -/
def keyedTables : Memory := ⟨kq, kz, kqInv, kz⟩

/-- A message open in direction `d` under the key `KQ`/`KZ`, no letter yet. -/
def opened (d : Direction) : State := { State.reset with mem := keyedTables, armed := true, dir := d }

/-- The same with the plaintext letter H held: the second letter comes next. -/
def held (d : Direction) : State := { opened d with phase := true, hold := 7 }

/-- The reset state with `SIGMA` or `TAU` replaced. -/
def loaded (σ τ : Table) : State := { State.reset with mem := { Memory.reset with sigma := σ, tau := τ } }

/-- The identity with its first entry made B: `BBCD...`, not a bijection. -/
def bb : Table := tableOfText "BBCDEFGHIJKLMNOPQRSTUVWXYZ"

/-- The next state of an answer. -/
def next? : Answer → Option State
  | .next s => some s
  | .fault _ => none
  | .refused _ => none

/-- The response of one word from a state with nothing answered. -/
def answer? (w : CmdWord) (s : State) : Option RspWord := (next? (runWord w s)).bind (·.responses.getLast?)

/-- What a word does to a state, seen through a function of the state. -/
def after? {α : Type} (f : State → α) (w : CmdWord) (s : State) : Option α := (next? (runWord w s)).map f

/-! ### Configuration and well-formedness -/

theorem test_parameters :
    Config.alphabetSize = alphabet.length ∧ Config.letterWidth = 5 ∧ Config.commandWidth = 16 ∧
      Config.responseWidth = 16 ∧ Config.outstanding = 1 ∧ Config.tableCount = 4 ∧
      (letterOfChar? 'A').map Fin.val = some Config.indexBase := by decide

/-- The one check of WellFormed: LDK of an inverse table is refused (R77), of a forward table is not. -/
theorem test_wellFormed_refuses_ldk_of_an_inverse_table :
    (Instr.ldk .sigmaInv 0 0).wf = false ∧ (Instr.ldk .tauInv 0 0).wf = false ∧
      (Instr.ldk .sigma 0 0).wf = true ∧ (Instr.ldk .tau 31 31).wf = true := by decide

/-! ### Decoding: words written out from spec/30_encoding.md R70 and R73 -/

theorem test_decode_nop : decode (0b0000#4 ++ 0b00#2 ++ 0b00000#5 ++ 0b00000#5) = some .nop := by decide
theorem test_decode_rst : decode (0b0001#4 ++ 0b00#2 ++ 0b00000#5 ++ 0b00000#5) = some .rst := by decide
theorem test_decode_rdc : decode (0b0010#4 ++ 0b00#2 ++ 0b00000#5 ++ 0b10110#5) = some (.rdc 22) := by decide
theorem test_decode_ldk :
    decode (0b0011#4 ++ 0b00#2 ++ 0b10010#5 ++ 0b00111#5) = some (.ldk .sigma 18 7) ∧
      decode (0b0011#4 ++ 0b01#2 ++ 0b10010#5 ++ 0b00111#5) = some (.ldk .tau 18 7) := by decide
theorem test_decode_rdt :
    decode (0b0100#4 ++ 0b00#2 ++ 0b10110#5 ++ 0b00000#5) = some (.rdt .sigma 22) ∧
      decode (0b0100#4 ++ 0b01#2 ++ 0b10110#5 ++ 0b00000#5) = some (.rdt .tau 22) ∧
      decode (0b0100#4 ++ 0b10#2 ++ 0b10110#5 ++ 0b00000#5) = some (.rdt .sigmaInv 22) ∧
      decode (0b0100#4 ++ 0b11#2 ++ 0b10110#5 ++ 0b00000#5) = some (.rdt .tauInv 22) := by decide
theorem test_decode_start :
    decode (0b0101#4 ++ 0b00#2 ++ 0b00000#5 ++ 0b00000#5) = some (.start .encipher) ∧
      decode (0b0101#4 ++ 0b00#2 ++ 0b00000#5 ++ 0b00001#5) = some (.start .decipher) := by decide
theorem test_decode_letter :
    decode (0b0110#4 ++ 0b00#2 ++ 0b00000#5 ++ 0b11110#5) = some (.letter 30) := by decide
theorem test_decode_endMsg : decode (0b0111#4 ++ 0b00#2 ++ 0b00000#5 ++ 0b00000#5) = some .endMsg := by decide
theorem test_decode_comp :
    decode (0b1000#4 ++ 0b00#2 ++ 0b00111#5 ++ 0b10100#5) = some (.comp 7 20) := by decide

/-- V18, all sixteen illegal words. -/
theorem test_decode_illegal_words :
    ([0x0001, 0x1001, 0x2020, 0x2400, 0x3800, 0x3C00, 0x4001, 0x5002, 0x5020, 0x6020, 0x6400, 0x7001,
      0x8400, 0x9000, 0xF000, 0xFFFF] : List CmdWord).all (fun w => (decode w).isNone && illegalWord w) = true := by
  decide

/-- The host's two questions: the table word of LET 'H' decodes, and runs as the first step after reset
(no message is open there, so V16's SequenceError). -/
theorem test_table_word_runs_first :
    decodeTableWord 16 0x6007 = some (.letter 7) ∧ decodeTableWord 16 0x6400 = none ∧
      ((next? (step (State.reset.withFetchWord 16 0x6007))).bind (·.responses.getLast?)) = some 0x4000 := by
  decide

/-! ### The units -/

/-- V4. -/
theorem test_transposition :
    transposeLetter 7 4 7 = 4 ∧ transposeLetter 7 4 4 = 7 ∧ transposeLetter 7 4 11 = 11 ∧
      transposeLetter 11 11 11 = 11 ∧ transposeLetter 11 11 3 = 3 ∧ transposeLetter 0 25 0 = 25 ∧
      transposeLetter 0 25 25 = 0 ∧ transposeLetter 4 7 7 = 4 := by decide

/-- V6: the transposition acts on positions of the forward table and on values of the inverse table. -/
theorem test_compose :
    composeTable kq 7 4 = tableOfText "QWERIYUTOPASDFGHJKLZXCVBNM" ∧
      composeInverse kq kqInv 7 4 = tableOfText "KXVMCNOPEQRSZYIJADLHGWBUFT" ∧
      composeTable kz 7 4 = tableOfText "ZYXWSUTVRQPONMLKJIHGFEDCBA" ∧
      composeInverse kz kz 7 4 = tableOfText "ZYXWVUTSRQPONMLKJIEGFHDCBA" ∧
      composeTable kq 11 11 = kq := by decide

/-- V7. -/
theorem test_valid_and_invert :
    validTable kq = true ∧ validTable kz = true ∧ validTable bb = false ∧ invertTable kq = kqInv ∧
      invertTable kz = kz ∧ invertTable identityTable = identityTable := by decide

/-! ### The commands -/

/-- V15: NOP does not disturb a pair in progress. -/
theorem test_nop : after? (fun s => (s.phase, s.hold, s.responses)) 0x0000 (held .encipher) =
    some (true, 7, [0x0000]) := by decide

/-- V15: RST with a key loaded and `FAULT` = 4 leaves the reset state. -/
theorem test_rst : next? (runWord 0x1000 { held .decipher with fault := 4 }) =
    some { State.reset with responses := [0x0000] } := by decide

/-- V15: STATUS and HOLDR inside a pair, in both directions, and ID. -/
theorem test_rdc : answer? 0x2000 (held .encipher) = some 0x0005 ∧ answer? 0x2001 (held .encipher) = some 0x0007 ∧
    answer? 0x2000 (held .decipher) = some 0x0007 ∧ answer? 0x2002 State.reset = some 0x01BA := by decide

/-- V15: RDC 3 and RDC 31; the fault is latched and shows in STATUS. -/
theorem test_rdc_of_no_register : answer? 0x2003 State.reset = some 0x5000 ∧ answer? 0x201F State.reset = some 0x5000 ∧
    after? statusRegister 0x2003 (held .encipher) = some 0x050 := by decide

/-- V8: LDK writes one entry; the largest legal index and value. -/
theorem test_ldk : after? (·.mem.sigma) 0x3010 State.reset = some (tableOfText "QBCDEFGHIJKLMNOPQRSTUVWXYZ") ∧
    after? (fun s => entry s.mem.tau 1) 0x3438 State.reset = some 24 ∧ answer? 0x3339 State.reset = some 0x0000 := by
  decide

/-- V8, V16: LDK out of range and LDK in an open message; nothing is written. -/
theorem test_ldk_faults : answer? 0x33DE State.reset = some 0x1000 ∧ answer? 0x301A State.reset = some 0x1000 ∧
    answer? 0x3340 State.reset = some 0x1000 ∧
    after? (fun s => (s.mem.sigma == kq, s.armed, s.fault)) 0x3001 (opened .encipher) = some (true, false, 4) := by
  decide

/-- V8: RDT of a forward table, of an inverse table, and of one that is stale. -/
theorem test_rdt : answer? 0x40E0 (opened .encipher) = some 0x0008 ∧ answer? 0x4F20 State.reset = some 0x0019 ∧
    answer? 0x4A00 (opened .encipher) = some 0x0000 ∧ answer? 0x4A00 (loaded kq kz) = some 0x0010 := by decide

/-- V16: even the fault of a read aborts the message. -/
theorem test_rdt_fault : after? (fun s => (s.responses, s.armed, s.phase, s.hold, s.fault)) 0x43E0 (held .encipher) =
    some ([0x2000], false, false, 0, 2) := by decide

/-- V8: START validates, writes the inverse tables and arms; inside a pair it drops the pair. -/
theorem test_start : after? (fun s => (s.mem.sigmaInv == kqInv, statusRegister s)) 0x5000 (loaded kq kz) =
      some (true, 0x001) ∧ after? statusRegister 0x5001 (held .encipher) = some 0x003 := by decide

/-- V8: START with one or both tables no bijection; `DIR` stays 0. -/
theorem test_start_faults : answer? 0x5000 (loaded bb kz) = some 0x1001 ∧ answer? 0x5000 (loaded kq bb) = some 0x1002 ∧
    after? (fun s => (s.responses, s.dir, s.mem.sigmaInv == identityTable)) 0x5001 (loaded bb bb) =
      some ([0x1003], .encipher, true) := by decide

/-- V5, V9: first letters, both directions; the plaintext letter is held. -/
theorem test_letter_first :
    after? (fun s => (s.responses, s.phase, s.hold)) 0x6007 (opened .encipher) = some ([0x0008], true, 7) ∧
    after? (fun s => (s.responses, s.phase, s.hold)) 0x6008 (opened .decipher) = some ([0x0007], true, 7) := by decide

/-- V5, V11: second letters, both directions: the same four tables. -/
theorem test_letter_second :
    let evolvedTables : Memory :=
      ⟨tableOfText "QWERIYUTOPASDFGHJKLZXCVBNM", tableOfText "ZYXWSUTVRQPONMLKJIHGFEDCBA",
        tableOfText "KXVMCNOPEQRSZYIJADLHGWBUFT", tableOfText "ZYXWVUTSRQPONMLKJIEGFHDCBA"⟩
    next? (runWord 0x6004 (held .encipher)) =
      some { opened .encipher with mem := evolvedTables, responses := [0x0015] } ∧
    next? (runWord 0x6015 (held .decipher)) =
      some { opened .decipher with mem := evolvedTables, responses := [0x0004] } := by decide

/-- V5, P2: END after an odd and an even number of letters. -/
theorem test_endMsg : after? (fun s => (s.responses, s.armed, s.phase, s.hold)) 0x7000 (held .encipher) =
      some ([0x0001], false, false, 0) ∧ answer? 0x7000 (opened .encipher) = some 0x0000 ∧
    answer? 0x7000 State.reset = some 0x4000 := by decide

/-- V17: COMP under the key, on itself, and between the letters of a pair. -/
theorem test_comp : after? (fun s => (s.mem.sigma, s.mem.tauInv)) 0x80E4 (opened .encipher) =
      some (tableOfText "QWERIYUTOPASDFGHJKLZXCVBNM", tableOfText "ZYXWVUTSRQPONMLKJIEGFHDCBA") ∧
    next? (runWord 0x816B (opened .encipher)) = some { opened .encipher with responses := [0x0000] } ∧
    answer? 0x801A (opened .encipher) = some 0x2000 ∧ answer? 0x8001 (held .encipher) = some 0x4000 := by decide

/-- V16: the state check comes before the operand check; the first fault code is kept. -/
theorem test_fault_priority : answer? 0x601E State.reset = some 0x4000 ∧ answer? 0x601E (opened .encipher) = some 0x2000 ∧
    answer? 0x6019 (opened .encipher) = some 0x000C ∧ answer? 0x33DE (opened .encipher) = some 0x4000 ∧
    after? (fun s => (s.responses, s.fault)) 0x5000 { loaded bb kz with fault := 4 } = some ([0x1001], 4) := by decide

/-! ### Messages and text -/

/-- V1, V2: `ABAB` enciphers to `ABBA` under the identity keys, and back. -/
theorem test_message_functions : encipher (Equiv.refl _) (Equiv.refl _) [0, 1, 0, 1] = [0, 1, 1, 0] ∧
    decipher (Equiv.refl _) (Equiv.refl _) [0, 1, 1, 0] = [0, 1, 0, 1] := by decide

/-- V13: `XYYZ` under `KQ`/`KZ` is answered B, B, B, A. -/
theorem test_example_message :
    (next? (runCommands (messageWords .encipher [23, 24, 24, 25]) (loaded kq kz))).map (·.responses) =
      some [0x0000, 0x0001, 0x0001, 0x0001, 0x0000, 0x0000] := by decide

/-- P2: the words of the pseudo-command KEY. -/
theorem test_assemble_key :
    assembleWords? "KEY TAU, \"ZYXWVUTSRQPONMLKJIHGFEDCBA\" ; the reversed alphabet".toList =
      some [0x3419, 0x3438, 0x3457, 0x3476, 0x3495, 0x34B4, 0x34D3, 0x34F2, 0x3511, 0x3530, 0x354F, 0x356E, 0x358D,
        0x35AC, 0x35CB, 0x35EA, 0x3609, 0x3628, 0x3647, 0x3666, 0x3685, 0x36A4, 0x36C3, 0x36E2, 0x3701, 0x3720] := by
  decide

/-- R82: the other pseudo-commands, the empty message among them; a line that is no command. -/
theorem test_assemble_pseudo :
    assembleText? ["SENC".toList, "MSG \"HE\"".toList, "MSG \"\"".toList, "END".toList, "RDS".toList,
      "LDS 'A', 'Q'".toList, "LDT 1, 24".toList] =
      some [0x5000, 0x6007, 0x6004, 0x7000, 0x2000, 0x3010, 0x3438] ∧
    (assembleWords? "DUMP SIGMA_INV".toList).map List.length = some 26 ∧
    assembleWords? "LET 32".toList = none ∧ assembleWords? "let 'H'".toList = none := by decide

/-! ### Witnesses: a concrete state and operands that meet the hypotheses of each statement -/

/-- An answer that is a next state. -/
theorem exists_next {a : Answer} (h : (next? a).isSome = true) : ∃ t, a = .next t := by
  cases a with
  | next t => exact ⟨t, rfl⟩
  | fault r => cases h
  | refused r => cases h

/-- An answer that is a next state with a property. -/
theorem exists_next_with {a : Answer} {f : State → Bool} (h : (next? a).any f = true) :
    ∃ t, a = .next t ∧ f t = true := by
  cases a with
  | next t => exact ⟨t, rfl, h⟩
  | fault r => cases h
  | refused r => cases h

/-- A state with the host about to send a word. -/
def sending (w : CmdWord) (s : State) : State := s.offerCommand w

theorem held_inv : (held .encipher).Inv ∧ (held .decipher).Inv := by decide
theorem opened_inv : (opened .encipher).Inv ∧ (opened .decipher).Inv := by decide

theorem witness_ResetLeavesIdentityTablesAndClearFlags :
    (∃ t, exec .rst (held .encipher) = .next t) ∧
    ∃ t, step { held .encipher with hostMoves := [.hardReset (some 0x6004)] } = .next t :=
  ⟨exists_next (by decide), exists_next (by decide)⟩

theorem witness_StepKeepsTheFourInvariants :
    (sending 0x6004 (held .encipher)).Inv ∧ ∃ t, step (sending 0x6004 (held .encipher)) = .next t :=
  ⟨by decide, exists_next (by decide)⟩

theorem witness_InvariantsHoldInEveryReachableState :
    ((held .decipher).Inv ∧ (∃ t, exec (.letter 21) (held .decipher) = .next t) ∧
      ∃ t, execIllegal (held .decipher) = .next t) ∧
    (∃ t, runSteps 2 { State.reset with hostMoves := [.command 0x5000, .command 0x6007] } = .next t) ∧
    ((held .decipher).armed = true ∧ entry (held .decipher).mem.sigmaInv 8 = Letter.ofIndex 7 ∧
      entry (held .decipher).mem.tauInv 25 = Letter.ofIndex 0) :=
  ⟨⟨by decide, exists_next (by decide), exists_next (by decide)⟩, exists_next (by decide), by decide⟩

theorem witness_EveryCommandWordIsAnsweredOnce : (held .decipher).Inv := held_inv.2

theorem witness_EveryRunOfCommandWordsCompletes : (opened .encipher).Inv := opened_inv.1

theorem witness_ResponseStatIsZeroOrARaisedCode :
    (∃ t, runWord 0x6004 (held .encipher) = .next t) ∧ (held .encipher).fault ≠ 3 :=
  ⟨exists_next (by decide), by decide⟩

theorem witness_DecodeOfEncodeIsTheCommand : (Instr.ldk .tau 31 26).wf = true := by decide

theorem witness_EncodeOfDecodeIsTheWord : decode 0x37FA = some (.ldk .tau 31 26) := by decide

theorem witness_IllegalWordsFaultAsIllegalCommand : illegalWord 0x6020 = true := by decide

theorem witness_OpcodeRowsAreDisjoint :
    (⟨.ldk, 0x3000, 0xF800⟩ : OpcodeRow) ∈ opcodeMap ∧ OpcodeRow.accepts ⟨.ldk, 0x3000, 0xF800⟩ 0x37FF = true := by
  decide

theorem witness_StepRunsTheDecodedCommand :
    (sending 0x80E4 (opened .encipher)).hostMoves = .command 0x80E4 :: [] ∧ decode 0x80E4 = some (.comp 7 4) := by
  decide

theorem witness_StepOnIllegalWordHardResetAndIdle :
    ((sending 0x6400 (held .encipher)).hostMoves = .command 0x6400 :: [] ∧ decode 0x6400 = none) ∧
    ({ held .encipher with hostMoves := [.hardReset none] } : State).hostMoves = .hardReset none :: [] ∧
    (held .encipher).hostMoves = [] := by decide

theorem witness_QueuedWordsRunInOrder : (held .encipher).hostMoves = [] := by decide

theorem witness_FaultEntryWritesExactlyItsFields : ErrorCode.illegalCommand ≠ .lengthMismatch := by decide

theorem witness_FaultsArePrecise :
    ∃ t, runWord 0x601E (held .encipher) = .next t ∧
      decide (t.responses = (held .encipher).responses ++ [0x2000] ∧ statOf 0x2000 ≠ 0) = true :=
  exists_next_with (by decide)

theorem witness_FaultLatchKeepsTheFirstCode :
    (∃ t, runWord 0x601E (held .encipher) = .next t ∧
      decide (t.responses = (held .encipher).responses ++ [0x2000] ∧ statOf 0x2000 ≠ 0) = true) ∧
    (∃ t, runWord 0x6004 (held .encipher) = .next t ∧
      decide (t.responses = (held .encipher).responses ++ [0x0015] ∧ statOf 0x0015 = 0 ∧
        decode 0x6004 ≠ some .rst ∧ decode 0x6004 ≠ some (.rdc 0)) = true) ∧
    (∃ t, runWord 0x1000 { held .encipher with fault := 4 } = .next t ∧
      decide (t.responses = (held .encipher).responses ++ [0x0000] ∧ decode 0x1000 = some .rst) = true) ∧
    ∃ t, step { held .encipher with fault := 4, hostMoves := [.hardReset none] } = .next t :=
  ⟨exists_next_with (by decide), exists_next_with (by decide), exists_next_with (by decide), exists_next (by decide)⟩

theorem witness_FaultPriorityIsDecodeThenStateThenOperand :
    (decode 0x6400 = none ∧ 2 < (3 : BitVec 5).toNat ∧ State.reset.armed = false) ∧
    ((held .encipher).armed = true ∧ (held .encipher).phase = true ∧ (opened .encipher).phase = false) ∧
    (TableSel.sigma.isForward = true ∧ 25 < (26 : Letter).toNat ∧ 25 < (31 : Letter).toNat) ∧
    validTable (loaded bb kz).mem.sigma = false ∧ validTable (loaded kq bb).mem.tau = false := by decide

theorem witness_RdcAnswersTheControlRegister : 2 < (3 : BitVec 5).toNat ∧ 2 < (31 : BitVec 5).toNat := by decide

theorem witness_LdkWritesOneKeyTableEntry :
    TableSel.tau.isForward = true ∧ (opened .encipher).armed = true ∧ State.reset.armed = false ∧
    25 < (26 : Letter).toNat ∧ (25 : Letter) = Letter.ofIndex 25 ∧ (25 : Letter).toNat ≤ 25 := by decide

theorem witness_LdkOfAnInverseTableIsIllegal : TableSel.tauInv.isForward = false := by decide

theorem witness_RdtAnswersTheStoredEntry : 25 < (26 : Letter).toNat := by decide

theorem witness_StartValidatesTheKeyPairAndOpensAMessage :
    (validTable (loaded kq kz).mem.sigma = true ∧ validTable (loaded kq kz).mem.tau = true) ∧
    validTable (loaded bb bb).mem.sigma = false := by decide

theorem witness_LetSubstitutesAndEvolves :
    (State.reset.armed = false ∧ 25 < (26 : Letter).toNat) ∧
    ((opened .encipher).armed = true ∧ (opened .encipher).phase = false ∧ (opened .encipher).dir = .encipher) ∧
    ((opened .decipher).armed = true ∧ (opened .decipher).phase = false ∧ (opened .decipher).dir = .decipher) ∧
    ((held .encipher).phase = true ∧ (held .encipher).dir = .encipher ∧ (held .encipher).hold = Letter.ofIndex 7) ∧
    ((held .decipher).phase = true ∧ (held .decipher).dir = .decipher ∧ (held .decipher).hold = Letter.ofIndex 7 ∧
      entry (held .decipher).mem.tauInv 25 = Letter.ofIndex 0) := by decide

theorem witness_LetOfALetterSucceedsInAnOpenMessage :
    (held .decipher).InRange ∧ (held .decipher).armed = true ∧ (25 : Letter).toNat ≤ 25 := by decide

theorem witness_EndClosesTheMessageAndAnswersItsParity :
    State.reset.armed = false ∧ (held .encipher).armed = true := by decide

theorem witness_CompComposesBothTables :
    (State.reset.armed = false ∧ (held .encipher).phase = true ∧ 25 < (26 : Letter).toNat) ∧
    (opened .encipher).Inv ∧ (opened .encipher).armed = true ∧ (opened .encipher).phase = false ∧
    (opened .encipher).dir = .encipher := by decide

theorem witness_CommandsStoreOnlyWhereTheirRuleSays :
    (∃ t, exec (.ldk .sigma 25 0) State.reset = .next t) ∧ ¬ commandStores (.ldk .sigma 25 0) State.reset .sigma 24 :=
  ⟨exists_next (by decide), by
    rintro ⟨-, -, h⟩
    exact absurd h (by decide)⟩

theorem witness_OnlyStartArmsTheBlock :
    (∃ t, exec (.start .decipher) State.reset = .next t ∧ (!State.reset.armed && t.armed) = true) ∧
    (∃ t, exec .endMsg (held .encipher) = .next t ∧ ((held .encipher).armed && !t.armed) = true) :=
  ⟨exists_next_with (by decide), exists_next_with (by decide)⟩

theorem witness_OnlyStartAndResetWriteTheDirection :
    (∃ t, exec (.start .decipher) (held .encipher) = .next t) ∧ Instr.start .decipher ≠ .rst :=
  ⟨exists_next (by decide), by decide⟩

theorem witness_OnlyMessageCommandsChangePhaseAndHold : ∃ t, exec (.letter 25) (held .encipher) = .next t :=
  exists_next (by decide)

theorem witness_NoLetterIsAnsweredUnderAnInvalidKey :
    (∃ s, runSteps 1 { State.reset with hostMoves := [.command 0x5000] } = .next s) ∧
    ∃ t, exec (.letter 25) (opened .encipher) = .next t ∧
      decide (t.responses = (opened .encipher).responses ++ [responseWord 0 12]) = true :=
  ⟨exists_next (by decide), exists_next_with (by decide)⟩

theorem witness_MessageStateMachineTransitions :
    (held .encipher).Inv ∧
    (∃ t, exec (.letter 4) (held .encipher) = .next t ∧
      decide (t.responses = (held .encipher).responses ++ [0x0015] ∧ statOf 0x0015 = 0) = true) ∧
    (∃ t, exec (.letter 26) (held .encipher) = .next t ∧
      decide (t.responses = (held .encipher).responses ++ [0x2000] ∧ statOf 0x2000 ≠ 0) = true) ∧
    (∃ t, runWord 0xFFFF (held .encipher) = .next t) ∧ decode 0xFFFF = none ∧
    ∃ t, step { held .encipher with hostMoves := [.hardReset none] } = .next t :=
  ⟨held_inv.1, exists_next_with (by decide), exists_next_with (by decide), exists_next (by decide), by decide,
    exists_next (by decide)⟩

theorem witness_TranspositionSwapsItsTwoLetters : (11 : Index) ≠ 0 ∧ (11 : Index) ≠ 25 := by decide

theorem witness_ComposeExchangesTwoPositions : (11 : Index) ≠ 0 ∧ (11 : Index) ≠ 25 := by decide

theorem witness_ComposeInverseIsTheInverseOfTheComposition :
    (validTable kq = true ∧ IsInverse kq kqInv) ∧
    (Letter.ofIndex 19 = entry kq 4 ∧ Letter.ofIndex 8 = entry kq 7) ∧
    (Letter.ofIndex 0 ≠ entry kq 7 ∧ Letter.ofIndex 0 ≠ entry kq 4) ∧
    entry kqInv 8 = Letter.ofIndex 7 := by decide

theorem witness_EvolveAdvancesAllFourTablesAtOnce :
    (opened .decipher).Inv ∧ (opened .decipher).armed = true ∧
    ({ State.reset with armed := true } : State).Inv ∧ Memory.reset.sigma = Memory.reset.tau := by decide

theorem witness_EvolutionPreservesBijections :
    validTable keyedTables.sigma = true ∧ validTable keyedTables.tau = true ∧
    IsInverse keyedTables.sigma keyedTables.sigmaInv ∧ IsInverse keyedTables.tau keyedTables.tauInv := by decide

theorem witness_ValidTableIsABijection : ∀ i : Index, (entry bb i).toNat ≤ 25 := by decide

theorem witness_InvertTableSwapsDomainAndImage : validTable kq = true ∧ entry kq 0 = Letter.ofIndex 16 := by decide

/-- Each clause of R139: letters 1 and 2 equal, 2 and 0 equal, 0 and 1 equal, 3 and 0 equal; at the
first pair, and at the second. -/
theorem witness_RepeatedLettersLeak :
    ([23, 24, 24, 25] : List Index)[2 * 0]? = some 23 ∧ ([23, 24, 24, 25] : List Index)[2 * 0 + 1]? = some 24 ∧
    ([23, 24, 24, 25] : List Index)[2 * 0 + 2]? = some 24 ∧
    ([0, 1, 23, 24, 23, 23] : List Index)[2 * 1]? = some 23 ∧
    ([0, 1, 23, 24, 23, 23] : List Index)[2 * 1 + 1]? = some 24 ∧
    ([0, 1, 23, 24, 23, 23] : List Index)[2 * 1 + 2]? = some 23 ∧
    ([0, 1, 23, 24, 23, 23] : List Index)[2 * 1 + 3]? = some 23 ∧
    ([5, 5, 6] : List Index)[2 * 0]? = some 5 ∧ ([5, 5, 6] : List Index)[2 * 0 + 1]? = some 5 ∧
    ([5, 5, 6] : List Index)[2 * 0 + 2]? = some 6 := by decide

/-- `KQ` and `KZ` are the tables of two permutations. -/
theorem key_permutations : ∃ σ τ : Permutation, kq = tableOf σ ∧ kz = tableOf τ := by
  obtain ⟨σ, hσ⟩ := exists_perm_of_valid (T := kq) (by decide)
  obtain ⟨τ, hτ⟩ := exists_perm_of_valid (T := kz) (by decide)
  exact ⟨σ, τ, eq_tableOf hσ, eq_tableOf hτ⟩

theorem witness_CommandSequencesComputeTheCipher :
    ∃ σ τ : Permutation, (loaded kq kz).mem.sigma = tableOf σ ∧ (loaded kq kz).mem.tau = tableOf τ :=
  key_permutations

theorem witness_BlockDeciphersWhatItEnciphered :
    ∃ σ τ : Permutation, (loaded kq kz).mem.sigma = tableOf σ ∧ (loaded kq kz).mem.tau = tableOf τ ∧
      (held .decipher).mem.sigma = tableOf σ ∧ (held .decipher).mem.tau = tableOf τ := by
  obtain ⟨σ, τ, h1, h2⟩ := key_permutations
  exact ⟨σ, τ, h1, h2, h1, h2⟩

theorem witness_OutputsDependOnlyOnKeyDirectionAndLetters :
    (loaded kq kz).mem.sigma = (held .decipher).mem.sigma ∧ (loaded kq kz).mem.tau = (held .decipher).mem.tau ∧
    (next? (runCommands (messageWords .encipher [7]) (loaded kq kz))).isSome = true := by decide

theorem witness_UnitsAreVisibleThroughCommands :
    validTable (loaded kq kz).mem.sigma = true ∧ validTable (loaded kq kz).mem.tau = true := by decide

theorem witness_KeyLoadWritesTheWholeTable :
    (∀ i : Index, (entry kq i).toNat ≤ 25) ∧ State.reset.armed = false := by decide

/-! Ports: a block with a response offered, a block that is ready, pins. -/

/-- Pins of a quiet host that takes responses. -/
def takes : Pins := ⟨false, false, 0, true⟩

/-- Pins of a host that offers LET 'E' and takes nothing. -/
def offers : Pins := ⟨false, true, 0x6004, false⟩

theorem witness_OfferedResponseIsHeldUntilTaken :
    (⟨held .encipher, .offering 0x0008, 0⟩ : Ports).rspData? = some 0x0008 ∧ takes.rst = false ∧
    offers.rst = false ∧ offers.rspReady = false ∧ takes.rspReady = true := by decide

/-- A hard reset with LET 'E' in flight, then two edges of a host that offers nothing. -/
theorem witness_HardResetAtAnyEdgeAbandonsTheCommand :
    (⟨held .encipher, .busy 0x6004 1, 0⟩ : Ports).link = .busy 0x6004 1 ∧
    (⟨true, false, 0, false⟩ : Pins).rst = true ∧ ∀ e ∈ [takes, takes], e.cmdValid = false := by decide

/-- Pins of a host that offers LET 'E' and takes responses. -/
def offersAndTakes : Pins := { offers with rspReady := true }

theorem hostKeepsOffers_replicate {e : Pins} (he : e.cmdValid = true) :
    ∀ (n : Nat) (p : Ports), hostKeepsOffers (List.replicate n e) p
  | 0, _ => trivial
  | 1, _ => trivial
  | n + 2, p => by
    refine ⟨by simp [Ports.offerStands, he], ?_⟩
    cases edge e p with
    | next q => exact hostKeepsOffers_replicate he (n + 1) q
    | fault r => trivial
    | refused r => trivial

/-- The first clause, for an offer made while a response is offered: the response is taken at the first
edge, and `d` is the wait drawn for the delivery. -/
theorem witness_HeldCommandIsAcceptedAsOffered_offering :
    ∃ (p q : Ports) (mid : List Pins), p.link = .offering 0x0008 ∧ p.cmdReady = false ∧
      hostKeepsOffers (offersAndTakes :: mid ++ [offersAndTakes]) p ∧ offersAndTakes.cmdValid = true ∧
      (∀ e ∈ offersAndTakes :: mid ++ [offersAndTakes], e.rst = false) ∧
      (∀ (k : Nat) (r : Ports), k < mid.length →
        runEdges (offersAndTakes :: mid.take k) p = .next r → r.cmdReady = false) ∧
      runEdges (offersAndTakes :: mid) p = .next q ∧ q.cmdReady = true := by
  have run : ∀ (d k : Nat) (q : Ports), q.link = restingFor d → k ≤ d →
      runEdges (List.replicate k offersAndTakes) q = .next { q with link := restingFor (d - k) } := by
    intro d k
    induction k generalizing d with
    | zero => intro q h _; simp [runEdges, ← h]
    | succ k ih =>
      intro q h hk
      obtain ⟨d, rfl⟩ : ∃ m, d = m + 1 := ⟨d - 1, by omega⟩
      have e1 : edge offersAndTakes q = .next { q with link := restingFor d } := by
        simp [edge, h, restingFor, offersAndTakes, offers]
      simp only [List.replicate_succ, runEdges, e1]
      rw [ih d _ rfl (by omega)]
      simp
  let d := Config.readyDelay 0
  let p : Ports := ⟨held .encipher, .offering 0x0008, 0⟩
  have first : edge offersAndTakes p = .next (p.deliver 0x0008) := rfl
  refine ⟨p, { p.deliver 0x0008 with link := .ready }, List.replicate d offersAndTakes, rfl, rfl, ?_, rfl, ?_, ?_, ?_, rfl⟩
  · rw [← List.replicate_succ, ← List.replicate_succ']
    exact hostKeepsOffers_replicate rfl _ _
  · intro e he
    rw [← List.replicate_succ, ← List.replicate_succ'] at he
    rw [List.eq_of_mem_replicate he]; rfl
  · intro k r hk hr
    rw [List.length_replicate] at hk
    simp only [List.take_replicate, Nat.min_eq_left hk.le, runEdges, first] at hr
    rw [run d k _ rfl hk.le] at hr
    obtain ⟨m, hm⟩ : ∃ m, d - k = m + 1 := ⟨d - k - 1, by omega⟩
    cases hr
    rw [hm]; rfl
  · simp only [runEdges, first]
    rw [run d d _ rfl (Nat.le_refl d), Nat.sub_self]
    rfl

/-- The first clause for a block that is resting, with `mid` empty, and the third; the second for a
block with LET 'E' in flight, with any number of later edges. -/
theorem witness_HeldCommandIsAcceptedAsOffered :
    ((⟨held .encipher, .resting 0, 0⟩ : Ports).cmdReady = false ∧
      runEdges [offers] ⟨held .encipher, .resting 0, 0⟩ = .next ⟨held .encipher, .ready, 0⟩ ∧
      (⟨held .encipher, .ready, 0⟩ : Ports).cmdReady = true) ∧
    ((⟨held .encipher, .busy 0x6004 1, 0⟩ : Ports).block.Inv ∧ ∀ n : Nat,
      hostKeepsOffers (offersAndTakes :: List.replicate n offersAndTakes) ⟨held .encipher, .busy 0x6004 1, 0⟩ ∧
      (∀ e ∈ offersAndTakes :: List.replicate n offersAndTakes, e.rst = false ∧ e.rspReady = true) ∧
      (List.replicate n offersAndTakes).length = n) ∧
    (⟨held .encipher, .resting 0, 0⟩ : Ports).link = .resting 0 ∧
    hostKeepsOffers [offers, offers] ⟨held .encipher, .resting 0, 0⟩ ∧ offers.cmdValid = true ∧
    (∀ e ∈ [offers, offers], e.rst = false) ∧ [offers].length = 0 + 1 :=
  ⟨⟨rfl, rfl, rfl⟩,
    ⟨held_inv.1, fun n => ⟨hostKeepsOffers_replicate (n := n + 1) rfl _,
      fun _ h => by rw [List.eq_of_mem_replicate (n := n + 1) h]; exact ⟨rfl, rfl⟩, by simp⟩⟩,
    rfl, ⟨by decide, trivial⟩, rfl, by decide, rfl⟩

theorem witness_QuietHostSeesReadyAgain :
    (⟨held .encipher, .busy 0x6004 3, 0⟩ : Ports).block.Inv ∧
    ∀ e ∈ [takes], e.rst = false ∧ e.cmdValid = false ∧ e.rspReady = true := by decide

theorem witness_StateChangesOnlyWhileACommandIsInFlight :
    takes.rst = false ∧
    ∃ q, edge takes ⟨held .encipher, .busy 0x6004 1, 0⟩ = .next q :=
  ⟨rfl, _, rfl⟩

theorem witness_AcceptedCommandIsAnsweredAfterItsLatency :
    ∃ (p : Ports) (later : List Pins), p.block.Inv ∧ p.cmdReady = true ∧ offers.rst = false ∧
      offers.cmdValid = true ∧ (∀ e ∈ later, e.rst = false) ∧ later.length = Config.latency p.uses :=
  ⟨⟨held .encipher, .ready, 0⟩, List.replicate (Config.latency 0) takes, held_inv.1, rfl, rfl, rfl,
    fun _ h => by rw [List.eq_of_mem_replicate h]; rfl, by simp⟩

theorem witness_PortsRefineTheTransactionModel :
    ∃ (p : Ports) (later waits : List Pins) (t : State), p.cmdReady = true ∧ offers.rst = false ∧
      offers.cmdValid = true ∧ (∀ e ∈ later, e.rst = false) ∧ later.length = Config.latency p.uses ∧
      (∀ e ∈ waits, e.rst = false ∧ e.rspReady = false) ∧ takes.rst = false ∧ takes.rspReady = true ∧
      runWord offers.cmdData p.block = .next t := by
  obtain ⟨t, ht⟩ := exists_next (a := runWord 0x6004 (held .encipher)) (by decide)
  exact ⟨⟨held .encipher, .ready, 0⟩, List.replicate (Config.latency 0) takes, [offers], t, rfl, rfl, rfl,
    fun _ h => by rw [List.eq_of_mem_replicate h]; rfl, by simp, by decide, rfl, rfl, ht⟩

theorem witness_InstancesAreIndependent : (0 : Nat) ≠ 1 := by decide

end Sys2Proof.Machine.Tests
end

section
/-! PROOFS. Family 00_scope (spec/00_scope.md R10): one step is one command of the host, every command
completes with one response, and the handshake at the ports has the effect of the transaction. -/

namespace Sys2Proof.Machine

/-! ### One step, by the host's next move -/

theorem step_of_command {s : State} {w : CmdWord} {rest : List HostMove}
    (h : s.hostMoves = .command w :: rest) : step s = runWord w { s with hostMoves := rest } := by
  simp [step, State.takeMove, h]

theorem step_of_hardReset {s : State} {a : Option CmdWord} {rest : List HostMove}
    (h : s.hostMoves = .hardReset a :: rest) :
    step s = .next (State.resetBlock { s with hostMoves := rest }) := by
  simp [step, State.takeMove, h]

theorem step_of_noMove {s : State} (h : s.hostMoves = []) : step s = .next s := by
  simp [step, State.takeMove, h]

theorem runWord_of_decode_some {w : CmdWord} {i : Instr} (h : decode w = some i) (s : State) :
    runWord w s = exec i s := by
  simp [runWord, h]

theorem runWord_of_decode_none {w : CmdWord} (h : decode w = none) (s : State) :
    runWord w s = .next (s.takeFault .illegalCommand 0) := by
  simp [runWord, h, execIllegal]

/-- Settles O13: the block takes the word, then the decoder names the command. -/
theorem stepRunsTheDecodedCommand : Obligations.StepRunsTheDecodedCommand := by
  intro s w rest i hmoves hdecode
  rw [step_of_command hmoves, runWord_of_decode_some hdecode]

/-! ### Every command completes

Only LET can stop the model, at the second letter of a pair; the range invariant INV1 excludes it. -/

theorem execRdc_completes (c : BitVec 5) (s : State) : ∃ t, execRdc c s = .next t := by
  unfold execRdc
  split <;> exact ⟨_, rfl⟩

theorem execLdk_completes (k : TableSel) (i v : Letter) (s : State) : ∃ t, execLdk k i v s = .next t := by
  unfold execLdk
  repeat' split
  all_goals exact ⟨_, rfl⟩

theorem execRdt_completes (k : TableSel) (i : Letter) (s : State) : ∃ t, execRdt k i s = .next t := by
  unfold execRdt
  split <;> exact ⟨_, rfl⟩

theorem execStart_completes (d : Direction) (s : State) : ∃ t, execStart d s = .next t := by
  unfold execStart
  split <;> exact ⟨_, rfl⟩

theorem execEndMsg_completes (s : State) : ∃ t, execEndMsg s = .next t := by
  unfold execEndMsg
  split <;> exact ⟨_, rfl⟩

theorem execComp_completes (a b : Letter) (s : State) : ∃ t, execComp a b s = .next t := by
  unfold execComp
  repeat' split
  all_goals exact ⟨_, rfl⟩

/-- LET completes under INV1: `HOLD` and the plaintext letter are then letters, so the pair that the
second letter closes names entries that exist (spec/20_memory.md R54). -/
theorem execLetter_completes (x : Letter) {s : State} (h : s.InRange) : ∃ t, execLetter x s = .next t := by
  obtain ⟨hmem, hhold, -⟩ := h
  cases harmed : s.armed with
  | false => exact ⟨_, exec_letter_idle x harmed⟩
  | true =>
    cases hx : Letter.isLetter x with
    | false => exact ⟨_, exec_letter_range harmed (Letter.isLetter_eq_false.mp hx)⟩
    | true =>
      obtain ⟨k, rfl⟩ := Letter.exists_index hx
      cases hphase : s.phase with
      | false => exact ⟨_, exec_letter_first k harmed hphase⟩
      | true =>
        obtain ⟨a, ha⟩ := Letter.exists_index hhold
        obtain ⟨b, hb⟩ := Letter.exists_index (plainLetter_isLetter hmem k)
        exact ⟨_, exec_letter_second k harmed hphase ha hb⟩

theorem exec_completes (i : Instr) {s : State} (h : s.InRange) : ∃ t, exec i s = .next t := by
  cases i with
  | nop => exact ⟨_, rfl⟩
  | rst => exact ⟨_, rfl⟩
  | rdc c => exact execRdc_completes c s
  | ldk k i v => exact execLdk_completes k i v s
  | rdt k i => exact execRdt_completes k i s
  | start d => exact execStart_completes d s
  | letter x => exact execLetter_completes x h
  | endMsg => exact execEndMsg_completes s
  | comp a b => exact execComp_completes a b s

theorem runWord_completes (w : CmdWord) {s : State} (h : s.InRange) : ∃ t, runWord w s = .next t := by
  cases hd : decode w with
  | none => exact ⟨_, runWord_of_decode_none hd s⟩
  | some i =>
    rw [runWord_of_decode_some hd]
    exact exec_completes i h

/-- A word that completes is answered by exactly one response and takes no move of the host. -/
theorem runWord_responses {w : CmdWord} {s t : State} (h : runWord w s = .next t) :
    (∃ r, t.responses = s.responses ++ [r]) ∧ t.hostMoves = s.hostMoves := by
  obtain ⟨i, -, e⟩ | ⟨-, rfl⟩ := runWord_effect h
  · exact effect_responses e
  · simp

/-- A step completes under INV1, which says nothing of the host's moves. -/
theorem step_completes {s : State} (h : s.InRange) : ∃ t, step s = .next t := by
  match hmoves : s.hostMoves with
  | [] => exact ⟨s, step_of_noMove hmoves⟩
  | .hardReset a :: rest => exact ⟨_, step_of_hardReset hmoves⟩
  | .command w :: rest =>
    have hrest : State.InRange { s with hostMoves := rest } := h
    rw [step_of_command hmoves]
    exact runWord_completes w hrest

/-- Settles O5: of the invariants, INV1 suffices. -/
theorem everyCommandWordIsAnsweredOnce : Obligations.EveryCommandWordIsAnsweredOnce := by
  intro s hinv
  have hrange : s.InRange := hinv.1
  refine ⟨fun w => ?_, step_completes hrange⟩
  obtain ⟨t, ht⟩ := runWord_completes w hrange
  obtain ⟨⟨r, hr⟩, hmoves⟩ := runWord_responses ht
  exact ⟨t, r, ht, hr, hmoves⟩

/-! ### One edge at the ports, by the state of the handshake -/

theorem Ports.cmdReady_iff {p : Ports} : p.cmdReady = true ↔ p.link = .ready := by
  unfold Ports.cmdReady
  cases p.link <;> simp

theorem edge_accept {p : Ports} {pins : Pins} (hrst : pins.rst = false) (hlink : p.link = .ready)
    (hvalid : pins.cmdValid = true) : edge pins p = p.accept pins.cmdData := by
  simp [edge, hrst, hlink, hvalid]

theorem edge_busy_last {p : Ports} {pins : Pins} {w : CmdWord} (hrst : pins.rst = false)
    (hlink : p.link = .busy w 0) : edge pins p = p.complete w := by
  simp [edge, hrst, hlink]

theorem edge_busy_wait {p : Ports} {pins : Pins} {w : CmdWord} {n : Nat} (hrst : pins.rst = false)
    (hlink : p.link = .busy w (n + 1)) : edge pins p = .next { p with link := .busy w n } := by
  simp [edge, hrst, hlink]

theorem edge_offering_wait {p : Ports} {pins : Pins} {r : RspWord} (hrst : pins.rst = false)
    (hlink : p.link = .offering r) (hready : pins.rspReady = false) : edge pins p = .next p := by
  simp [edge, hrst, hlink, hready]

theorem edge_offering_take {p : Ports} {pins : Pins} {r : RspWord} (hrst : pins.rst = false)
    (hlink : p.link = .offering r) (hready : pins.rspReady = true) :
    edge pins p = .next (p.deliver r) := by
  simp [edge, hrst, hlink, hready]

@[simp] theorem Ports.deliver_block (r : RspWord) (p : Ports) :
    (p.deliver r).block = p.block.respond r := rfl

@[simp] theorem Ports.deliver_rspValid (r : RspWord) (p : Ports) : (p.deliver r).rspValid = false := by
  unfold Ports.rspValid Ports.deliver
  cases Config.readyDelay p.uses <;> rfl

/-! ### Runs of edges -/

theorem runEdges_cons {e : Pins} {p q : Ports} (h : edge e p = .next q) (es : List Pins) :
    runEdges (e :: es) p = runEdges es q := by
  simp [runEdges, h]

/-- A run of one edge is the edge. -/
@[simp] theorem runEdges_singleton (e : Pins) (p : Ports) : runEdges [e] p = edge e p := by
  cases h : edge e p <;> simp [runEdges, h]

theorem runEdges_append {es : List Pins} {p q : Ports} (h : runEdges es p = .next q) (fs : List Pins) :
    runEdges (es ++ fs) p = runEdges fs q := by
  induction es generalizing p with
  | nil =>
    cases h
    rfl
  | cons e es ih =>
    cases he : edge e p with
    | next u =>
      rw [runEdges_cons he] at h
      rw [List.cons_append, runEdges_cons he, ih h]
    | fault r => simp [runEdges, he] at h
    | refused r => simp [runEdges, he] at h

/-- A command in flight completes at the last of the edges it waits for, whatever the other pins do. -/
theorem runEdges_busy {es : List Pins} {p : Ports} {w : CmdWord} {n : Nat} (hlink : p.link = .busy w n)
    (hrst : ∀ e ∈ es, e.rst = false) (hlen : es.length = n + 1) : runEdges es p = p.complete w := by
  induction n generalizing es p with
  | zero =>
    obtain ⟨e, rfl⟩ := List.length_eq_one_iff.mp hlen
    rw [runEdges_singleton, edge_busy_last (hrst e (by simp)) hlink]
  | succ n ih =>
    obtain ⟨e, es, rfl⟩ := List.exists_cons_of_length_eq_add_one hlen
    rw [runEdges_cons (edge_busy_wait (hrst e (by simp)) hlink)]
    exact ih rfl (fun e' he' => hrst e' (by simp [he'])) (by simpa using hlen)

/-- An accepted command completes when its drawn `LATENCY` has passed (spec/70_reset_and_hazards.md R207). -/
theorem runEdges_accept {p : Ports} {first : Pins} {later : List Pins} (hlink : p.link = .ready)
    (hfirst : first.rst = false) (hvalid : first.cmdValid = true) (hrst : ∀ e ∈ later, e.rst = false)
    (hlen : later.length = Config.latency p.uses) :
    runEdges (first :: later) p = Ports.complete first.cmdData { p with uses := p.uses + 1 } := by
  have haccept := edge_accept hfirst hlink hvalid
  cases hlat : Config.latency p.uses with
  | zero =>
    obtain rfl : later = [] := List.length_eq_zero_iff.mp (hlen.trans hlat)
    simp [haccept, Ports.accept, hlat]
  | succ n =>
    have hbusy : edge first p = .next { p with link := .busy first.cmdData n, uses := p.uses + 1 } := by
      simp [haccept, Ports.accept, hlat]
    rw [runEdges_cons hbusy, runEdges_busy rfl hrst (hlen.trans hlat)]
    rfl

/-- An offered response is held, and the whole block with it, while the host takes its time. -/
theorem runEdges_offering_wait {es : List Pins} {p : Ports} {r : RspWord} (hlink : p.link = .offering r)
    (hwait : ∀ e ∈ es, e.rst = false ∧ e.rspReady = false) : runEdges es p = .next p := by
  induction es with
  | nil => rfl
  | cons e es ih =>
    obtain ⟨hrst, hready⟩ := hwait e (by simp)
    rw [runEdges_cons (edge_offering_wait hrst hlink hready)]
    exact ih fun e' he' => hwait e' (by simp [he'])

/-! ### Completion and delivery together are the transaction -/

theorem Ports.complete_of_runWord {w : CmdWord} {p : Ports} {t : State} (h : runWord w p.block = .next t) :
    p.complete w = .next { p with
      block := { t with responses := p.block.responses }, link := .offering (lastResponse t) } := by
  simp [Ports.complete, h]

/-- From acceptance to the offer: the block holds the transaction's state but for the response, which is
offered and not yet delivered. -/
theorem runEdges_offers {p : Ports} {first : Pins} {later : List Pins} {t : State} (hlink : p.link = .ready)
    (hfirst : first.rst = false) (hvalid : first.cmdValid = true) (hrst : ∀ e ∈ later, e.rst = false)
    (hlen : later.length = Config.latency p.uses) (ht : runWord first.cmdData p.block = .next t) :
    ∃ q, runEdges (first :: later) p = .next q ∧ q.link = .offering (lastResponse t) ∧
      q.block = { t with responses := p.block.responses } :=
  ⟨_, (runEdges_accept hlink hfirst hvalid hrst hlen).trans (Ports.complete_of_runWord ht), rfl, rfl⟩

/-- Delivering the response that completion held back gives the state of the transaction. -/
theorem respond_lastResponse {w : CmdWord} {s t : State} (h : runWord w s = .next t) :
    State.respond (lastResponse t) { t with responses := s.responses } = t := by
  obtain ⟨⟨r, hr⟩, -⟩ := runWord_responses h
  have hlast : lastResponse t = r := by simp [lastResponse, hr]
  rw [hlast]
  exact State.eq_of_fields rfl rfl rfl rfl rfl rfl rfl hr.symm

/-- Settles O59: acceptance and latency lead to the completion, the wait keeps it, and the delivery
adds the response that the completion held back. -/
theorem portsRefineTheTransactionModel : Obligations.PortsRefineTheTransactionModel := by
  intro p first last later waits t hready hfirst hvalid hlater hlen hwaits hlast htake ht
  obtain ⟨q, hq, hlink, hblock⟩ :=
    runEdges_offers (Ports.cmdReady_iff.mp hready) hfirst hvalid hlater hlen ht
  refine ⟨q.deliver (lastResponse t), ?run, ?block, Ports.deliver_rspValid _ _⟩
  case run =>
    rw [List.append_assoc, runEdges_append hq, runEdges_append (runEdges_offering_wait hlink hwaits),
      runEdges_singleton, edge_offering_take hlast hlink htake]
  case block => rw [Ports.deliver_block, hblock, respond_lastResponse ht]

end Sys2Proof.Machine
end

section
/-! PROOFS. Family 10_state (spec/10_state.md): what reset leaves (R36), the four invariants of R35, which
commands write the flags (R25 to R28), and the fault latch (R29). -/

namespace Sys2Proof.Machine

/-! ### Reset -/

/-- A soft or a hard reset leaves the architectural state of `State.reset`, and the host's two fields free. -/
theorem resetBlock_reads_reset (s : State) :
    (∀ sel i, tabRead s.resetBlock.mem sel i = Letter.ofIndex i) ∧
    statusRegister s.resetBlock = 0x000 ∧ holdRegister s.resetBlock = 0x000 := by
  refine ⟨fun sel i => ?_, ?_, ?_⟩
  · cases sel <;> simp
  · simp [statusRegister, Direction.bit]
  · simp [holdRegister, Letter.toData]

/-- Settles O1: each of the three states is a `resetBlock`, but for the response that RST appends. -/
theorem resetLeavesIdentityTablesAndClearFlags : Obligations.ResetLeavesIdentityTablesAndClearFlags := by
  intro t ht
  have hid : idRegister = 0x1BA := by decide
  have hreset : ∃ (s : State) (rs : List RspWord), t = { s.resetBlock with responses := rs } := by
    obtain rfl | ⟨s, hs⟩ | ⟨s, a, rest, hmoves, hs⟩ := ht
    · exact ⟨State.reset, [], rfl⟩
    · exact ⟨s, _, next_inj hs⟩
    · rw [step_of_hardReset hmoves] at hs
      exact ⟨{ s with hostMoves := rest }, s.responses, next_inj hs⟩
  obtain ⟨s, rs, rfl⟩ := hreset
  obtain ⟨htables, hstatus, hhold⟩ := resetBlock_reads_reset s
  exact ⟨htables, rfl, rfl, rfl, rfl, rfl, hstatus, hhold, hid⟩

/-! ### A table and its inverse -/

theorem validTable_identityTable : validTable identityTable = true :=
  (validTable_of_map (f := id) entry_identityTable).mpr Function.injective_id

/-- INVERT of a valid table is its inverse table (spec/40_units.md R96). -/
theorem isInverse_invertTable {T : Table} (hT : validTable T = true) : IsInverse T (invertTable T) := by
  obtain ⟨σ, hσ⟩ := exists_perm_of_valid hT
  exact (isInverse_of_perm hσ).mpr (entry_invertTable σ hσ)

theorem validTable_of_isInverse {T TI : Table} (hT : validTable T = true) (hTI : IsInverse T TI) :
    validTable TI = true := by
  obtain ⟨σ, hσ⟩ := exists_perm_of_valid hT
  exact (validTable_of_map ((isInverse_of_perm hσ).mp hTI)).mpr σ.symm.injective

/-- INV2's "hence also" (spec/10_state.md R35): the inverse table is inverted by the forward table. -/
theorem isInverse_symm {T TI : Table} (hT : validTable T = true) (hTI : IsInverse T TI) : IsInverse TI T := by
  obtain ⟨σ, hσ⟩ := exists_perm_of_valid hT
  have hσ' : ∀ y, entry TI y = Letter.ofIndex (σ.symm y) := (isInverse_of_perm hσ).mp hTI
  exact (isInverse_of_perm hσ').mpr hσ

theorem validTable_composeTable {T : Table} (hT : validTable T = true) (a b : Index) :
    validTable (composeTable T a b) = true := by
  obtain ⟨σ, hσ⟩ := exists_perm_of_valid hT
  exact (validTable_of_map (entry_composeTable_perm hσ a b)).mpr (advance σ a b).injective

/-- PC and PCI keep a table and its inverse table together (spec/40_units.md R93). -/
theorem isInverse_compose {T TI : Table} (hT : validTable T = true) (hTI : IsInverse T TI) (a b : Index) :
    IsInverse (composeTable T a b) (composeInverse T TI a b) := by
  obtain ⟨σ, hσ⟩ := exists_perm_of_valid hT
  exact (isInverse_of_perm (entry_composeTable_perm hσ a b)).mpr
    (entry_composeInverse_perm hσ ((isInverse_of_perm hσ).mp hTI) a b)

/-- Both forward tables are valid and both inverse tables belong to them: what INV2 says of an armed state. -/
abbrev Memory.Paired (m : Memory) : Prop :=
  validTable m.sigma = true ∧ validTable m.tau = true ∧ IsInverse m.sigma m.sigmaInv ∧ IsInverse m.tau m.tauInv

theorem Memory.Paired.inverses_valid {m : Memory} (h : m.Paired) :
    validTable m.sigmaInv = true ∧ validTable m.tauInv = true := by
  obtain ⟨hσ, hτ, hσi, hτi⟩ := h
  exact ⟨validTable_of_isInverse hσ hσi, validTable_of_isInverse hτ hτi⟩

/-- EVOLVE keeps the pairing (spec/40_units.md R94). -/
theorem Memory.Paired.evolve {m : Memory} (h : m.Paired) (a b : Index) : (m.evolve a b).Paired := by
  obtain ⟨hσ, hτ, hσi, hτi⟩ := h
  exact ⟨validTable_composeTable hσ a b, validTable_composeTable hτ a b,
    isInverse_compose hσ hσi a b, isInverse_compose hτ hτi a b⟩

/-- START's writes establish the pairing (spec/41_key_commands.md R112). -/
theorem Memory.paired_writeInverses {m : Memory} (hσ : validTable m.sigma = true)
    (hτ : validTable m.tau = true) : m.writeInverses.Paired := by
  simp only [Memory.Paired, Memory.writeInverses_sigma, Memory.writeInverses_tau,
    Memory.writeInverses_sigmaInv, Memory.writeInverses_tauInv]
  exact ⟨hσ, hτ, isInverse_invertTable hσ, isInverse_invertTable hτ⟩

theorem tabWrite_forward_inverses {k : TableSel} (hk : k.isForward = true) (m : Memory) (i : Index)
    (v : Letter) : (tabWrite m k i v).sigmaInv = m.sigmaInv ∧ (tabWrite m k i v).tauInv = m.tauInv := by
  cases k with
  | sigma => exact ⟨rfl, rfl⟩
  | tau => exact ⟨rfl, rfl⟩
  | sigmaInv => cases hk
  | tauInv => cases hk

/-! ### The invariants, operation by operation -/

theorem Letter.isLetter_zero : Letter.isLetter 0 = true := by decide

theorem inv_reset : State.reset.Inv :=
  ⟨⟨Memory.reset_wf, Letter.isLetter_zero, by decide⟩, nofun, ⟨fun _ => rfl, fun _ => rfl⟩,
    validTable_identityTable, validTable_identityTable⟩

theorem inv_resetBlock (s : State) : s.resetBlock.Inv :=
  inv_congr inv_reset rfl rfl rfl rfl rfl

theorem inv_answerOk {s : State} (h : s.Inv) (d : Data) : (s.answerOk d).Inv :=
  inv_congr h rfl rfl rfl rfl rfl

theorem inv_disarm {s : State} (h : s.Inv) : s.disarm.Inv := by
  obtain ⟨⟨hmem, -, hfault⟩, -, -, hinverses⟩ := h
  exact ⟨⟨hmem, Letter.isLetter_zero, hfault⟩, nofun, ⟨fun _ => rfl, fun _ => rfl⟩, hinverses⟩

theorem inv_closePair {s : State} (h : s.Inv) : s.closePair.Inv := by
  obtain ⟨⟨hmem, -, hfault⟩, hpaired, -, hinverses⟩ := h
  exact ⟨⟨hmem, Letter.isLetter_zero, hfault⟩, hpaired, ⟨fun _ => rfl, fun _ => rfl⟩, hinverses⟩

theorem inv_holdFirst {s : State} (h : s.Inv) (harmed : s.armed = true) {p : Letter}
    (hp : Letter.isLetter p = true) : (s.holdFirst p).Inv := by
  obtain ⟨⟨hmem, -, hfault⟩, hpaired, -, hinverses⟩ := h
  exact ⟨⟨hmem, hp, hfault⟩, hpaired, ⟨by simp [harmed], by simp⟩, hinverses⟩

theorem inv_openMessage {s : State} (h : s.Inv) (hpaired : s.mem.Paired) (d : Direction) :
    (s.openMessage d).Inv := by
  obtain ⟨⟨hmem, -, hfault⟩, -, -, hinverses⟩ := h
  exact ⟨⟨hmem, Letter.isLetter_zero, hfault⟩, fun _ => hpaired, ⟨nofun, fun _ => rfl⟩, hinverses⟩

theorem inv_withMem {s : State} {m : Memory} (h : s.Inv) (hmem : m.wf = true)
    (hpaired : s.armed = true → m.Paired)
    (hinverses : validTable m.sigmaInv = true ∧ validTable m.tauInv = true) : (s.withMem m).Inv := by
  obtain ⟨⟨-, hhold, hfault⟩, -, hclean, -⟩ := h
  exact ⟨⟨hmem, hhold, hfault⟩, hpaired, hclean, hinverses⟩

/-- LDK's write touches neither inverse table, and INV2 asks nothing while disarmed. -/
theorem inv_tabWrite {s : State} (h : s.Inv) (harmed : s.armed = false) {k : TableSel}
    (hk : k.isForward = true) (i j : Index) :
    (s.withMem (tabWrite s.mem k i (Letter.ofIndex j))).Inv := by
  have ⟨⟨hmem, _, _⟩, _, _, hinverses⟩ := h
  obtain ⟨hσi, hτi⟩ := tabWrite_forward_inverses hk s.mem i (Letter.ofIndex j)
  refine inv_withMem h (tabWrite_wf hmem k i (Letter.isLetter_ofIndex j)) (by simp [harmed]) ?_
  rw [hσi, hτi]
  exact hinverses

/-- START establishes INV2 and INV4 from its own validation of the forward tables. -/
theorem inv_start {s : State} (h : s.Inv) (hσ : validTable s.mem.sigma = true)
    (hτ : validTable s.mem.tau = true) (d : Direction) :
    ((s.withMem s.mem.writeInverses).openMessage d).Inv := by
  have ⟨⟨hmem, _, _⟩, _⟩ := h
  have hpaired : s.mem.writeInverses.Paired := Memory.paired_writeInverses hσ hτ
  exact inv_openMessage
    (inv_withMem h (Memory.writeInverses_wf hmem hσ hτ) (fun _ => hpaired) hpaired.inverses_valid) hpaired d

/-- EVOLVE in an armed state: INV2 gives the pairing it keeps, and INV4 follows from the pairing. -/
theorem inv_evolve {s : State} (h : s.Inv) (harmed : s.armed = true) (a b : Index) : (s.evolve a b).Inv := by
  have ⟨⟨hmem, _, _⟩, harmedPaired, _⟩ := h
  have hpaired : (s.mem.evolve a b).Paired := Memory.Paired.evolve (harmedPaired harmed) a b
  exact inv_withMem h (Memory.evolve_wf hmem a b) (fun _ => hpaired) hpaired.inverses_valid

/-! ### The invariants, command by command and step by step -/

theorem exec_keeps_inv {i : Instr} {s t : State} (h : s.Inv) (hs : exec i s = .next t) : t.Inv := by
  cases exec_effect hs with
  | nop => exact inv_answerOk h _
  | rdc => exact inv_answerOk h _
  | rdt => exact inv_answerOk h _
  | rst => exact inv_answerOk (inv_resetBlock s) _
  | ldk hk harmed k v => exact inv_answerOk (inv_tabWrite h harmed hk k v) _
  | start d hσ hτ => exact inv_answerOk (inv_start h hσ hτ d) _
  | letterFirst harmed _ x =>
    have ⟨⟨hmem, _, _⟩, _⟩ := h
    exact inv_answerOk (inv_holdFirst h harmed (plainLetter_isLetter hmem x)) _
  | letterSecond harmed _ _ a b => exact inv_answerOk (inv_closePair (inv_evolve h harmed a b)) _
  | endMsg => exact inv_answerOk (inv_disarm h) _
  | comp harmed _ a b => exact inv_answerOk (inv_evolve h harmed a b) _
  | _ => exact inv_takeFault h _ _ nofun

theorem execIllegal_keeps_inv {s t : State} (h : s.Inv) (hs : execIllegal s = .next t) : t.Inv := by
  obtain rfl := next_inj hs
  exact inv_takeFault h _ _ nofun

theorem runWord_keeps_inv {w : CmdWord} {s t : State} (h : s.Inv) (hs : runWord w s = .next t) : t.Inv := by
  cases hd : decode w with
  | none =>
    rw [runWord_of_decode_none hd] at hs
    exact execIllegal_keeps_inv h hs
  | some i =>
    rw [runWord_of_decode_some hd] at hs
    exact exec_keeps_inv h hs

theorem step_keeps_inv {s t : State} (h : s.Inv) (hs : step s = .next t) : t.Inv := by
  match hmoves : s.hostMoves with
  | [] =>
    rw [step_of_noMove hmoves] at hs
    obtain rfl := next_inj hs
    exact h
  | .hardReset a :: rest =>
    rw [step_of_hardReset hmoves] at hs
    obtain rfl := next_inj hs
    exact inv_resetBlock _
  | .command w :: rest =>
    have hrest : State.Inv { s with hostMoves := rest } := h
    rw [step_of_command hmoves] at hs
    exact runWord_keeps_inv hrest hs

theorem runSteps_keeps_inv (k : Nat) {s t : State} (h : s.Inv) (hs : runSteps k s = .next t) : t.Inv := by
  induction k generalizing s with
  | zero =>
    obtain rfl := next_inj hs
    exact h
  | succ k ih =>
    unfold runSteps at hs
    split at hs
    · exact ih (step_keeps_inv h ‹_›) hs
    · cases hs
    · cases hs

/-- Settles O2: the identity tables are valid and every flag is clear. -/
theorem resetMeetsTheFourInvariants : Obligations.ResetMeetsTheFourInvariants :=
  inv_reset

/-- Settles O3, by the host's next move. -/
theorem stepKeepsTheFourInvariants : Obligations.StepKeepsTheFourInvariants :=
  fun _ _ => step_keeps_inv

/-- Settles O4: the step lemma by induction on the number of steps, and `isInverse_symm` for the last clause. -/
theorem invariantsHoldInEveryReachableState : Obligations.InvariantsHoldInEveryReachableState := by
  refine ⟨inv_reset, fun _ _ _ => exec_keeps_inv, fun _ _ => execIllegal_keeps_inv, ?reachable, ?inverse⟩
  case reachable =>
    intro moves k t ht
    have hstart : State.Inv { State.reset with hostMoves := moves } := inv_reset
    exact runSteps_keeps_inv k hstart ht
  case inverse =>
    rintro s ⟨-, hvalid, -, -⟩ harmed x y
    obtain ⟨hσ, hτ, hσi, hτi⟩ := hvalid harmed
    exact ⟨isInverse_symm hσ hσi y x, isInverse_symm hτ hτi y x⟩

/-! ### Which commands write the flags -/

/-- Settles O32: of the successes only START, RST and END write `ARMED`. -/
theorem onlyStartArmsTheBlock : Obligations.OnlyStartArmsTheBlock := by
  intro i s t h
  cases exec_effect h with
  | start d => exact ⟨fun _ _ => ⟨d, rfl⟩, nofun⟩
  | endMsg => exact ⟨nofun, fun _ _ => .inl rfl⟩
  | rst => exact ⟨nofun, fun _ _ => .inr (.inl rfl)⟩
  | nop | rdc | rdt | ldk | letterFirst | letterSecond | comp =>
    simp +contextual [letterFirst, letterSecond]
  | _ => exact ⟨nofun, fun _ _ => .inr (.inr ⟨_, _, rfl⟩)⟩

/-- Settles O33: every effect but START's and RST's leaves `DIR` as it is. -/
theorem onlyStartAndResetWriteTheDirection : Obligations.OnlyStartAndResetWriteTheDirection := by
  intro i s t h hrst
  cases exec_effect h with
  | rst => exact absurd rfl hrst
  | start d => exact .inr ⟨d, rfl, rfl, rfl⟩
  | _ => exact .inl (by simp [letterFirst, letterSecond])

/-- Settles O34: LET toggles `PHASE` on either path, and what else writes the two fields clears both. -/
theorem onlyMessageCommandsChangePhaseAndHold : Obligations.OnlyMessageCommandsChangePhaseAndHold := by
  intro i s t h
  cases exec_effect h with
  | nop | rdc | rdt | ldk | comp => exact .inl (by simp)
  | letterFirst _ hphase x => exact .inr (.inr ⟨_, rfl, by simp [letterFirst, hphase]⟩)
  | letterSecond _ hphase x => exact .inr (.inr ⟨_, rfl, by simp [letterSecond, hphase]⟩)
  | start d => exact .inr (.inl ⟨rfl, rfl, .inl ⟨d, rfl⟩⟩)
  | endMsg => exact .inr (.inl ⟨rfl, rfl, .inr (.inl rfl)⟩)
  | rst => exact .inr (.inl ⟨rfl, rfl, .inr (.inr (.inl rfl))⟩)
  | _ => exact .inr (.inl ⟨rfl, rfl, .inr (.inr (.inr ⟨_, _, rfl⟩))⟩)

/-! ### The fault latch -/

theorem ErrorCode.code_ne_zero (c : ErrorCode) : c.code ≠ 0 := by
  cases c <;> decide

/-- A command that completes takes a fault, or answers `STAT = 0` and, unless it is RST, keeps `FAULT`. -/
theorem effect_fault_or_success {i : Instr} {s t : State} (e : Effect s i t) :
    (∃ c d, c ≠ .lengthMismatch ∧ t = s.takeFault c d) ∨
      (∃ d, t.responses = s.responses ++ [responseWord 0 d]) ∧ (i = .rst ∨ t.fault = s.fault) := by
  cases e with
  | rst => exact .inr ⟨⟨_, rfl⟩, .inl rfl⟩
  | nop | rdc | rdt | ldk | start | letterFirst | letterSecond | endMsg | comp =>
    simp [letterFirst, letterSecond]
  | _ => exact .inl ⟨_, _, by decide, rfl⟩

/-- The same for a word; an illegal one faults. -/
theorem runWord_fault_or_success {w : CmdWord} {s t : State} (h : runWord w s = .next t) :
    (∃ c d, c ≠ .lengthMismatch ∧ t = s.takeFault c d) ∨
      (∃ d, t.responses = s.responses ++ [responseWord 0 d]) ∧
        (decode w = some .rst ∨ t.fault = s.fault) := by
  obtain ⟨i, hd, e⟩ | ⟨-, rfl⟩ := runWord_effect h
  · rw [hd, Option.some_inj]
    exact effect_fault_or_success e
  · exact .inl ⟨_, _, by decide, rfl⟩

/-- What a word's response says of `FAULT` (spec/10_state.md R29). -/
theorem runWord_fault_by_stat {w : CmdWord} {s t : State} {r : RspWord} (h : runWord w s = .next t)
    (hr : t.responses = s.responses ++ [r]) :
    (statOf r ≠ 0 → t.fault = if s.fault = 0 then statOf r else s.fault) ∧
    (statOf r = 0 → decode w ≠ some .rst → t.fault = s.fault) := by
  obtain ⟨c, d, -, rfl⟩ | ⟨⟨d, hd⟩, hfault⟩ := runWord_fault_or_success h
  · obtain rfl : responseWord c.code d = r := by simpa using hr
    exact ⟨fun _ => by simp, fun h0 => absurd h0 (by simpa using c.code_ne_zero)⟩
  · obtain rfl : responseWord 0 d = r := by simpa [hd] using hr
    exact ⟨by simp, fun _ hrst => hfault.resolve_left hrst⟩

/-- `s` with another value of `FAULT`. -/
def State.withFault (f : BitVec 4) (s : State) : State :=
  { s with fault := f }

@[simp] theorem State.withFault_mem (f : BitVec 4) (s : State) : (s.withFault f).mem = s.mem := rfl

@[simp] theorem State.withFault_armed (f : BitVec 4) (s : State) :
    (s.withFault f).armed = s.armed := rfl

@[simp] theorem State.withFault_dir (f : BitVec 4) (s : State) : (s.withFault f).dir = s.dir := rfl

@[simp] theorem State.withFault_phase (f : BitVec 4) (s : State) :
    (s.withFault f).phase = s.phase := rfl

@[simp] theorem State.withFault_hold (f : BitVec 4) (s : State) : (s.withFault f).hold = s.hold := rfl

@[simp] theorem State.withFault_hostMoves (f : BitVec 4) (s : State) :
    (s.withFault f).hostMoves = s.hostMoves := rfl

@[simp] theorem State.withFault_responses (f : BitVec 4) (s : State) :
    (s.withFault f).responses = s.responses := rfl

@[simp] theorem State.withFault_fault (f : BitVec 4) (s : State) : (s.withFault f).fault = f := rfl

/-- Only STATUS shows `FAULT` (spec/10_state.md R32 to R34). -/
theorem controlRegister?_withFault {c : BitVec 5} (hc : c ≠ 0) (s : State) (f : BitVec 4) :
    controlRegister? c (s.withFault f) = controlRegister? c s := by
  simp only [controlRegister?, if_neg hc]
  rfl

/-- No path of a command but `RDC STATUS` looks at `FAULT`, and every other field of the next state is
computed without it (spec/10_state.md R29: "It gates nothing"). -/
theorem exec_fault_gates_nothing {i : Instr} {s t : State} (f : BitVec 4) (hi : i ≠ .rdc 0)
    (h : exec i s = .next t) :
    ∃ t', exec i (s.withFault f) = .next t' ∧ t'.withFault t.fault = t := by
  cases exec_effect h with
  | nop => exact ⟨_, rfl, rfl⟩
  | rst => exact ⟨_, rfl, rfl⟩
  | rdc hc =>
    rw [← controlRegister?_withFault (fun h0 => hi (h0 ▸ rfl)) s f] at hc
    exact ⟨_, by simp only [exec, execRdc, hc]; rfl, rfl⟩
  | rdcIllegal hc =>
    rw [← controlRegister?_withFault (fun h0 => hi (h0 ▸ rfl)) s f] at hc
    exact ⟨_, by simp only [exec, execRdc, hc]; rfl, rfl⟩
  | ldk hk hs k v => exact ⟨_, exec_ldk_ok (s := s.withFault f) hk hs k v, rfl⟩
  | ldkIllegal hk => exact ⟨_, by simp only [exec, execLdk, hk]; rfl, rfl⟩
  | ldkArmed hk hs => exact ⟨_, exec_ldk_armed (s := s.withFault f) hk hs _ _, rfl⟩
  | ldkRange hk hs hr => exact ⟨_, exec_ldk_range (s := s.withFault f) hk hs hr, rfl⟩
  | rdt k x => exact ⟨_, exec_rdt_ok k x _, rfl⟩
  | rdtRange hr => exact ⟨_, exec_rdt_range _ _ hr, rfl⟩
  | start d hσ hτ =>
    exact ⟨_, exec_start_ok (s := s.withFault f) d hσ hτ, by apply State.eq_of_fields <;> simp⟩
  | startInvalid d hv => exact ⟨_, exec_start_invalid (s := s.withFault f) d hv, rfl⟩
  | letterIdle hs => exact ⟨_, exec_letter_idle (s := s.withFault f) _ hs, rfl⟩
  | letterRange hs hr => exact ⟨_, exec_letter_range (s := s.withFault f) hs hr, rfl⟩
  | letterFirst hs hp x => exact ⟨_, exec_letter_first (s := s.withFault f) x hs hp, rfl⟩
  | letterSecond hs hp x a b ha hb =>
    exact ⟨_, exec_letter_second (s := s.withFault f) x hs hp ha hb, by
      apply State.eq_of_fields <;> simp [letterSecond, letterOut]⟩
  | endMsg hs => exact ⟨_, exec_end_ok (s := s.withFault f) hs, rfl⟩
  | endIdle hs => exact ⟨_, exec_end_idle (s := s.withFault f) hs, rfl⟩
  | comp hs hp a b => exact ⟨_, exec_comp_ok (s := s.withFault f) a b hs hp, by apply State.eq_of_fields <;> simp⟩
  | compSequence hs => exact ⟨_, exec_comp_sequence (s := s.withFault f) _ _ hs, rfl⟩
  | compRange hs hp hr => exact ⟨_, exec_comp_range (s := s.withFault f) hs hp hr, rfl⟩

theorem runWord_fault_gates_nothing {w : CmdWord} {s t : State} (f : BitVec 4)
    (hw : decode w ≠ some (.rdc 0)) (h : runWord w s = .next t) :
    ∃ t', runWord w (s.withFault f) = .next t' ∧ t'.withFault t.fault = t := by
  cases hd : decode w with
  | none =>
    rw [runWord_of_decode_none hd] at h ⊢
    obtain rfl := next_inj h
    exact ⟨_, rfl, rfl⟩
  | some i =>
    rw [runWord_of_decode_some hd] at h ⊢
    exact exec_fault_gates_nothing f (fun hi => hw (hi ▸ hd)) h

/-- `STATUS[7:4]` is `FAULT` (spec/10_state.md R32). -/
theorem statusRegister_extract_fault (s : State) : (statusRegister s).extractLsb' 4 4 = s.fault := by
  apply BitVec.eq_of_getLsbD_eq
  intro i hi
  simp only [statusRegister, BitVec.getLsbD_extractLsb', BitVec.getLsbD_append]
  interval_cases i <;> simp

/-- Settles O18: the response tells a fault from a success, and no path of a command depends on the latch. -/
theorem faultLatchKeepsTheFirstCode : Obligations.FaultLatchKeepsTheFirstCode := by
  refine ⟨rfl, fun w s t r h hr => ?latch, ?hardReset,
    fun _ _ _ f hw h => runWord_fault_gates_nothing f hw h, statusRegister_extract_fault⟩
  case latch =>
    obtain ⟨hfault, hsuccess⟩ := runWord_fault_by_stat h hr
    refine ⟨hfault, hsuccess, fun hd => ?_⟩
    rw [runWord_of_decode_some hd] at h
    obtain rfl := next_inj h
    rfl
  case hardReset =>
    intro s t a rest hmoves h
    rw [step_of_hardReset hmoves] at h
    obtain rfl := next_inj h
    rfl

end Sys2Proof.Machine
end

section
/-! PROOFS. Family 20_memory (spec/20_memory.md R51, R58, R60): no command looks at the words that wait
behind it, and a command stores to no table entry but those its rule names. -/

namespace Sys2Proof.Machine

/-! ### Words waiting in the channel -/

/-- `s` with other moves of the host waiting. -/
def State.withMoves (moves : List HostMove) (s : State) : State :=
  { s with hostMoves := moves }

@[simp] theorem State.withMoves_mem (moves : List HostMove) (s : State) :
    (s.withMoves moves).mem = s.mem := rfl

@[simp] theorem State.withMoves_armed (moves : List HostMove) (s : State) :
    (s.withMoves moves).armed = s.armed := rfl

@[simp] theorem State.withMoves_phase (moves : List HostMove) (s : State) :
    (s.withMoves moves).phase = s.phase := rfl

@[simp] theorem State.withMoves_hold (moves : List HostMove) (s : State) :
    (s.withMoves moves).hold = s.hold := rfl

@[simp] theorem State.withMoves_hostMoves (moves : List HostMove) (s : State) :
    (s.withMoves moves).hostMoves = moves := rfl

theorem State.withMoves_of_eq {moves : List HostMove} {s : State} (h : s.hostMoves = moves) :
    s.withMoves moves = s := by
  subst h
  rfl

/-- An answer with its next state, if it has one, changed. -/
def mapNext (f : State → State) : Answer → Answer
  | .next s => .next (f s)
  | .fault r => .fault r
  | .refused r => .refused r

theorem execRdc_withMoves (moves : List HostMove) (c : BitVec 5) (s : State) :
    execRdc c (s.withMoves moves) = mapNext (State.withMoves moves) (execRdc c s) := by
  have hread : controlRegister? c (s.withMoves moves) = controlRegister? c s := rfl
  unfold execRdc
  rw [hread]
  cases controlRegister? c s <;> rfl

theorem execLdk_withMoves (moves : List HostMove) (k : TableSel) (i v : Letter) (s : State) :
    execLdk k i v (s.withMoves moves) = mapNext (State.withMoves moves) (execLdk k i v s) := by
  unfold execLdk
  simp only [State.withMoves_armed, apply_ite (mapNext _)]
  cases Letter.index? i <;> cases Letter.isLetter v <;> rfl

theorem execRdt_withMoves (moves : List HostMove) (k : TableSel) (i : Letter) (s : State) :
    execRdt k i (s.withMoves moves) = mapNext (State.withMoves moves) (execRdt k i s) := by
  unfold execRdt
  cases Letter.index? i <;> rfl

theorem execStart_withMoves (moves : List HostMove) (d : Direction) (s : State) :
    execStart d (s.withMoves moves) = mapNext (State.withMoves moves) (execStart d s) := by
  unfold execStart
  simp only [State.withMoves_mem, apply_ite (mapNext _)]
  rfl

theorem execLetter_withMoves (moves : List HostMove) (x : Letter) (s : State) :
    execLetter x (s.withMoves moves) = mapNext (State.withMoves moves) (execLetter x s) := by
  unfold execLetter
  cases Letter.index? x with
  | none =>
    simp only [State.withMoves_armed, apply_ite (mapNext _)]
    rfl
  | some k =>
    have hplain : plainLetter k (s.withMoves moves) = plainLetter k s := rfl
    simp only [State.withMoves_armed, State.withMoves_phase, State.withMoves_hold, hplain,
      apply_ite (mapNext _)]
    cases Letter.index? s.hold <;> cases Letter.index? (plainLetter k s) <;> rfl

theorem execEndMsg_withMoves (moves : List HostMove) (s : State) :
    execEndMsg (s.withMoves moves) = mapNext (State.withMoves moves) (execEndMsg s) := by
  unfold execEndMsg
  simp only [State.withMoves_armed, apply_ite (mapNext _)]
  rfl

theorem execComp_withMoves (moves : List HostMove) (a b : Letter) (s : State) :
    execComp a b (s.withMoves moves) = mapNext (State.withMoves moves) (execComp a b s) := by
  unfold execComp
  simp only [State.withMoves_armed, State.withMoves_phase, apply_ite (mapNext _)]
  cases Letter.index? a <;> cases Letter.index? b <;> rfl

/-- No command reads the host's moves that wait behind it, or changes them (log 1). -/
theorem exec_withMoves (moves : List HostMove) (i : Instr) (s : State) :
    exec i (s.withMoves moves) = mapNext (State.withMoves moves) (exec i s) := by
  cases i with
  | nop => rfl
  | rst => rfl
  | rdc c => exact execRdc_withMoves moves c s
  | ldk k i v => exact execLdk_withMoves moves k i v s
  | rdt k i => exact execRdt_withMoves moves k i s
  | start d => exact execStart_withMoves moves d s
  | letter x => exact execLetter_withMoves moves x s
  | endMsg => exact execEndMsg_withMoves moves s
  | comp a b => exact execComp_withMoves moves a b s

theorem runWord_withMoves (moves : List HostMove) (w : CmdWord) (s : State) :
    runWord w (s.withMoves moves) = mapNext (State.withMoves moves) (runWord w s) := by
  cases hd : decode w with
  | none =>
    rw [runWord_of_decode_none hd, runWord_of_decode_none hd]
    rfl
  | some i =>
    rw [runWord_of_decode_some hd, runWord_of_decode_some hd]
    exact exec_withMoves moves i s

/-- A step that finds a word in the channel runs it and leaves the later moves waiting. -/
theorem step_withMoves_command (w : CmdWord) (rest : List HostMove) (s : State) :
    step (s.withMoves (.command w :: rest)) = mapNext (State.withMoves rest) (runWord w s) := by
  rw [step_of_command (State.withMoves_hostMoves _ s)]
  exact runWord_withMoves rest w s

/-- Settles O15, by induction on the waiting words: each step runs the first as if it were alone. -/
theorem queuedWordsRunInOrder : Obligations.QueuedWordsRunInOrder := by
  intro ws
  induction ws with
  | nil =>
    intro s hidle
    exact congrArg Host.Outcome.next (State.withMoves_of_eq hidle)
  | cons w ws ih =>
    intro s hidle
    have hstep := step_withMoves_command w (ws.map .command) s
    change runSteps (ws.length + 1) (s.withMoves (.command w :: ws.map .command)) = _
    unfold runSteps runCommands
    rw [hstep]
    cases hrun : runWord w s with
    | next t =>
      obtain ⟨-, hmoves⟩ := runWord_responses hrun
      exact ih t (hmoves.trans hidle)
    | fault r => rfl
    | refused r => rfl

/-! ### Where a command stores -/

theorem entry_composeTable_of_ne {x a b : Index} (ha : x ≠ a) (hb : x ≠ b) (T : Table) :
    entry (composeTable T a b) x = entry T x := by
  rw [entry_composeTable, transposeLetter_eq_swap, Equiv.swap_apply_of_ne_of_ne ha hb]

theorem entry_composeInverse_of_ne {T : Table} {y a b : Index} (ha : Letter.ofIndex y ≠ entry T a)
    (hb : Letter.ofIndex y ≠ entry T b) (TI : Table) : entry (composeInverse T TI a b) y = entry TI y := by
  rw [entry_composeInverse, if_neg hb, if_neg ha]

/-- The frame of EVOLVE (spec/40_units.md R94). -/
theorem tabRead_evolve_of_not_stores {m : Memory} {a b : Index} {k : TableSel} {x : Index}
    (h : ¬ evolveStores m a b k x) : tabRead (m.evolve a b) k x = tabRead m k x := by
  cases k with
  | sigma | tau =>
    obtain ⟨ha, hb⟩ := not_or.mp h
    exact entry_composeTable_of_ne ha hb _
  | sigmaInv | tauInv =>
    obtain ⟨ha, hb⟩ := not_or.mp h
    exact entry_composeInverse_of_ne ha hb _

/-- The frame of START's writes (spec/41_key_commands.md R112). -/
theorem tabRead_writeInverses_of_forward (m : Memory) {k : TableSel} (h : ¬ (k = .sigmaInv ∨ k = .tauInv))
    (x : Index) : tabRead m.writeInverses k x = tabRead m k x := by
  cases k with
  | sigma | tau => simp
  | sigmaInv | tauInv => simp at h

/-- Settles O31: a fault stores nothing, and LDK, START and EVOLVE store where their frame lemmas say. -/
theorem commandsStoreOnlyWhereTheirRuleSays : Obligations.CommandsStoreOnlyWhereTheirRuleSays := by
  intro i s t h k x hstores
  cases exec_effect h with
  | rst => exact absurd trivial hstores
  | @ldk k' _ hs j v =>
    have hother : ¬ (k = k' ∧ x = j) := fun ⟨hk, hx⟩ => hstores ⟨hs, hk, congrArg Letter.ofIndex hx⟩
    rw [State.answerOk_mem, State.withMem_mem, tabRead_tabWrite, if_neg hother]
  | start d => exact tabRead_writeInverses_of_forward s.mem hstores x
  | letterSecond hs hp y a b ha hb =>
    exact tabRead_evolve_of_not_stores fun he => hstores ⟨hs, hp, y, a, b, rfl, ha, hb, he⟩
  | comp hs hp a b => exact tabRead_evolve_of_not_stores fun he => hstores ⟨hs, hp, a, b, rfl, rfl, he⟩
  | letterFirst => rfl
  | _ => simp

theorem exec_ldk_illegal {k : TableSel} (hk : k.isForward = false) (i v : Letter) (s : State) :
    exec (.ldk k i v) s = .next (s.takeFault .illegalCommand 0) := by
  simp [exec, execLdk, hk]

/-- Settles O24: the check of the table comes before every other check of LDK. -/
theorem ldkOfAnInverseTableIsIllegal : Obligations.LdkOfAnInverseTableIsIllegal :=
  fun _ i v s hk => exec_ldk_illegal hk i v s

end Sys2Proof.Machine
end

section
/-! PROOFS. Family 30_encoding (spec/30_encoding.md): the opcode picks the one row a word can satisfy (R73),
so decoder and encoder are inverse (R70, R74), the illegal words are those of R75, and KEY loads a table (R82). -/

namespace Sys2Proof

/-! ### The rows of the opcode map, said in fields -/

/-- The opcode of a row, as `OP` carries it (spec/30_encoding.md R73). -/
def Opcode.number : Opcode → BitVec 4
  | .nop => 0
  | .rst => 1
  | .rdc => 2
  | .ldk => 3
  | .rdt => 4
  | .start => 5
  | .letter => 6
  | .endMsg => 7
  | .comp => 8

/-- The bits that a row's command does not use are zero (spec/30_encoding.md R75). -/
def Opcode.UnusedZero (w : CmdWord) : Opcode → Prop
  | .nop | .rst | .endMsg => fieldSel w = 0 ∧ fieldA w = 0 ∧ fieldB w = 0
  | .rdc | .letter => fieldSel w = 0 ∧ fieldA w = 0
  | .ldk => fieldSel w &&& 2 = 0
  | .rdt => fieldB w = 0
  | .start => fieldSel w = 0 ∧ fieldA w = 0 ∧ fieldB w &&& 30 = 0
  | .comp => fieldSel w = 0

/-- A row accepts the words that have its opcode and zeros in the bits its command does not use. -/
theorem accepts_iff_unusedZero (w : CmdWord) : ∀ r ∈ opcodeMap,
    (r.accepts w = true ↔ fieldOp w = r.op.number ∧ r.op.UnusedZero w) := by
  have hop : fieldOp w &&& 15#4 = fieldOp w := BitVec.and_allOnes
  have hsel : fieldSel w &&& 3#2 = fieldSel w := BitVec.and_allOnes
  have ha : fieldA w &&& 31#5 = fieldA w := BitVec.and_allOnes
  have hb : fieldB w &&& 31#5 = fieldB w := BitVec.and_allOnes
  rw [opcodeMap_fields]
  simp [accepts_iff_fields, Opcode.number, Opcode.UnusedZero, hop, hsel, ha, hb]

/-- The opcode names the row. -/
theorem row_eq_of_number : ∀ r ∈ opcodeMap, ∀ r' ∈ opcodeMap, r.op.number = r'.op.number → r = r' := by
  decide

theorem exists_row (op : Opcode) : ∃ r ∈ opcodeMap, r.op = op := by
  cases op <;> decide

theorem row_unique {r r' : OpcodeRow} {w : CmdWord} (hr : r ∈ opcodeMap) (hr' : r' ∈ opcodeMap)
    (h : r.accepts w = true) (h' : r'.accepts w = true) : r = r' := by
  obtain ⟨hop, -⟩ := (accepts_iff_unusedZero w r hr).mp h
  obtain ⟨hop', -⟩ := (accepts_iff_unusedZero w r' hr').mp h'
  exact row_eq_of_number r hr r' hr' (hop.symm.trans hop')

/-! ### The decoder -/

theorem decode_eq_none_iff {w : CmdWord} : decode w = none ↔ ∀ r ∈ opcodeMap, r.accepts w = false := by
  simp [decode, rowOf]

theorem exists_row_of_decode {w : CmdWord} {i : Instr} (h : decode w = some i) :
    ∃ r ∈ opcodeMap, r.accepts w = true ∧ withOperands r.op w = i := by
  simp only [decode, rowOf, Option.map_map, Option.map_eq_some_iff] at h
  obtain ⟨r, hfind, hi⟩ := h
  exact ⟨r, List.mem_of_find?_eq_some hfind, by simpa using List.find?_some hfind, hi⟩

theorem decode_of_accepts {r : OpcodeRow} {w : CmdWord} (hr : r ∈ opcodeMap) (h : r.accepts w = true) :
    decode w = some (withOperands r.op w) := by
  cases hd : decode w with
  | none => simp [decode_eq_none_iff.mp hd r hr] at h
  | some i =>
    obtain ⟨r', hr', h', rfl⟩ := exists_row_of_decode hd
    rw [row_unique hr hr' h h']

/-- The decoder without its search: the opcode, the unused bits, the operands. -/
theorem decode_eq_some_iff {w : CmdWord} {i : Instr} :
    decode w = some i ↔
      ∃ op : Opcode, fieldOp w = op.number ∧ op.UnusedZero w ∧ withOperands op w = i := by
  constructor
  · intro h
    obtain ⟨r, hr, haccepts, hi⟩ := exists_row_of_decode h
    obtain ⟨hop, hzero⟩ := (accepts_iff_unusedZero w r hr).mp haccepts
    exact ⟨r.op, hop, hzero, hi⟩
  · rintro ⟨op, hop, hzero, rfl⟩
    obtain ⟨r, hr, rfl⟩ := exists_row op
    exact decode_of_accepts hr ((accepts_iff_unusedZero w r hr).mpr ⟨hop, hzero⟩)

/-- Settles O11: two rows that accept a word have its opcode, and the opcode names the row. -/
theorem opcodeRowsAreDisjoint : Obligations.OpcodeRowsAreDisjoint :=
  ⟨fun _ _ _ => row_unique, fun _ => decode_eq_none_iff⟩

/-! ### Decoding an encoding -/

theorem withOperands_ldk (w : CmdWord) : withOperands .ldk w =
    .ldk (if (fieldSel w).getLsbD 0 then .tau else .sigma) (fieldA w) (fieldB w) := by
  simp [withOperands, fieldSel]

theorem withOperands_start (w : CmdWord) :
    withOperands .start w = .start (Direction.ofBit ((fieldB w).getLsbD 0)) := by
  simp [withOperands, fieldB]

/-- With `SEL[1]` zero, `SEL` is the code of the forward table that `SEL[0]` names. -/
theorem code_of_forward_sel : ∀ sel : BitVec 2, sel &&& 2 = 0 →
    (if sel.getLsbD 0 then TableSel.tau else .sigma).code = sel := by
  decide

/-- With `B[4:1]` zero, `B` is its own bit 0. -/
theorem ofBool_of_start_field : ∀ b : BitVec 5, b &&& 30 = 0 → 0#4 ++ BitVec.ofBool (b.getLsbD 0) = b := by
  decide

/-- The row of a command (spec/30_encoding.md R73). -/
def Instr.opcode : Instr → Opcode
  | .nop => .nop
  | .rst => .rst
  | .rdc _ => .rdc
  | .ldk _ _ _ => .ldk
  | .rdt _ _ => .rdt
  | .start _ => .start
  | .letter _ => .letter
  | .endMsg => .endMsg
  | .comp _ _ => .comp

/-- The encoder writes the opcode of the command's row. -/
theorem fieldOp_encode (i : Instr) : fieldOp (encode i) = i.opcode.number := by
  cases i <;> exact fieldOp_commandWord _ _ _ _

/-- The encoder writes zeros where the command has no operand. -/
theorem unusedZero_encode {i : Instr} (h : i.wf = true) : i.opcode.UnusedZero (encode i) := by
  cases i with
  | ldk t i v =>
    cases t with
    | sigma | tau => simp [Instr.opcode, Opcode.UnusedZero, encode, TableSel.code]
    | sigmaInv | tauInv => cases h
  | start d => cases d <;> simp [Instr.opcode, Opcode.UnusedZero, encode, Direction.bit]
  | _ => simp [Instr.opcode, Opcode.UnusedZero, encode]

/-- The operands read back from the fields they were written to (spec/30_encoding.md R74). -/
theorem withOperands_encode {i : Instr} (h : i.wf = true) : withOperands i.opcode (encode i) = i := by
  cases i with
  | ldk t i v =>
    rw [Instr.opcode, withOperands_ldk]
    cases t with
    | sigma | tau => simp [encode, TableSel.code]
    | sigmaInv | tauInv => cases h
  | start d => cases d <;> rfl
  | _ => simp [Instr.opcode, withOperands, encode]

theorem decode_encode {i : Instr} (h : i.wf = true) : decode (encode i) = some i :=
  decode_eq_some_iff.mpr ⟨i.opcode, fieldOp_encode i, unusedZero_encode h, withOperands_encode h⟩

/-- Settles O8: the encoding has the command's opcode, zeros in the unused bits, and its operands. -/
theorem decodeOfEncodeIsTheCommand : Obligations.DecodeOfEncodeIsTheCommand :=
  fun _ => decode_encode

/-! ### Encoding a decoded word -/

/-- A decoded LDK names SIGMA or TAU (spec/30_encoding.md R72). -/
theorem withOperands_wf (op : Opcode) (w : CmdWord) : (withOperands op w).wf = true := by
  cases op with
  | ldk =>
    simp only [withOperands, Instr.wf]
    split <;> rfl
  | _ => rfl

/-- With zeros in the unused bits, the opcode and the operands are the whole word. -/
theorem encode_withOperands {op : Opcode} {w : CmdWord} (hop : fieldOp w = op.number)
    (hzero : op.UnusedZero w) : encode (withOperands op w) = w := by
  conv_rhs => rw [← commandWord_fields w, hop]
  cases op with
  | nop | rst | endMsg =>
    obtain ⟨hsel, ha, hb⟩ := hzero
    rw [hsel, ha, hb]
    rfl
  | rdc | letter =>
    obtain ⟨hsel, ha⟩ := hzero
    rw [hsel, ha]
    rfl
  | ldk =>
    rw [withOperands_ldk, encode, code_of_forward_sel _ hzero]
    rfl
  | rdt =>
    rw [withOperands, encode, TableSel.code_ofCode, show fieldB w = 0 from hzero]
    rfl
  | start =>
    obtain ⟨hsel, ha, hb⟩ := hzero
    rw [withOperands_start, encode, Direction.bit_ofBit, ofBool_of_start_field _ hb, hsel, ha]
    rfl
  | comp =>
    rw [show fieldSel w = 0 from hzero]
    rfl

/-- Settles O9: a decoded word has its row's opcode and no nonzero bit outside the operands. -/
theorem encodeOfDecodeIsTheWord : Obligations.EncodeOfDecodeIsTheWord := by
  intro w i h
  obtain ⟨op, hop, hzero, rfl⟩ := decode_eq_some_iff.mp h
  exact ⟨withOperands_wf op w, encode_withOperands hop hzero⟩

/-- Settles O12: one word for each row, decoded by evaluation. -/
theorem writtenOutWordsDecodeToTheirCommands : Obligations.WrittenOutWordsDecodeToTheirCommands := by
  unfold Obligations.WrittenOutWordsDecodeToTheirCommands
  decide

end Sys2Proof

namespace Sys2Proof.Machine

/-! ### Illegal words -/

/-- Bits in a row are zero when the low ones and the high ones are. -/
theorem extractLsb'_eq_zero_iff (w : CmdWord) (start low high : Nat) :
    w.extractLsb' start (low + high) = 0 ↔
      w.extractLsb' start low = 0 ∧ w.extractLsb' (start + low) high = 0 := by
  simp only [BitVec.eq_of_getLsbD_eq_iff, BitVec.getLsbD_extractLsb', BitVec.ofNat_eq_ofNat, BitVec.getLsbD_zero]
  constructor
  · intro h
    refine ⟨fun k hk => ?_, fun k hk => ?_⟩
    · simpa [hk, show k < low + high by omega] using h k (by omega)
    · simpa [hk, Nat.add_assoc] using h (low + k) (by omega)
  · rintro ⟨hlow, hhigh⟩ k hk
    by_cases hkl : k < low
    · simpa [hk, hkl] using hlow k hkl
    · simpa [hk, show k - low < high by omega, show start + low + (k - low) = start + k by omega]
        using hhigh (k - low) (by omega)

theorem sel_a_eq_zero_iff {w : CmdWord} : w.extractLsb' 5 7 = 0 ↔ fieldSel w = 0 ∧ fieldA w = 0 :=
  (extractLsb'_eq_zero_iff w 5 5 2).trans and_comm

theorem sel_a_b_eq_zero_iff {w : CmdWord} :
    w.extractLsb' 0 12 = 0 ↔ fieldSel w = 0 ∧ fieldA w = 0 ∧ fieldB w = 0 := by
  have hsplit := extractLsb'_eq_zero_iff w 0 5 7
  rw [sel_a_eq_zero_iff] at hsplit
  rw [hsplit, fieldB]
  tauto

theorem extractLsb'_one_eq_zero_iff : ∀ b : BitVec 5, b.extractLsb' 1 4 = 0 ↔ b &&& 30 = 0 := by
  decide

theorem start_unused_eq_zero_iff {w : CmdWord} :
    w.extractLsb' 1 11 = 0 ↔ fieldSel w = 0 ∧ fieldA w = 0 ∧ fieldB w &&& 30 = 0 := by
  have hsplit := extractLsb'_eq_zero_iff w 1 4 7
  have hb : (fieldB w).extractLsb' 1 4 = w.extractLsb' 1 4 := by
    simp [fieldB, BitVec.extractLsb'_extractLsb'_of_le]
  rw [sel_a_eq_zero_iff] at hsplit
  rw [hsplit, ← extractLsb'_one_eq_zero_iff, hb]
  tauto

theorem getLsbD_one_eq_false_iff : ∀ sel : BitVec 2, sel.getLsbD 1 = false ↔ sel &&& 2 = 0 := by
  decide

theorem sel_high_eq_false_iff {w : CmdWord} : w.getLsbD 11 = false ↔ fieldSel w &&& 2 = 0 := by
  rw [← getLsbD_one_eq_false_iff]
  simp [fieldSel]

/-- Of the words with the opcode of a command, the legal ones are those with zeros in the unused bits. -/
theorem illegalWord_eq_false_iff {op : Opcode} {w : CmdWord} (hop : fieldOp w = op.number) :
    illegalWord w = false ↔ op.UnusedZero w := by
  cases op with
  | nop | rst | endMsg => simpa [illegalWord, hop, Opcode.number, Opcode.UnusedZero] using sel_a_b_eq_zero_iff
  | rdc | letter => simpa [illegalWord, hop, Opcode.number, Opcode.UnusedZero] using sel_a_eq_zero_iff
  | ldk => simpa [illegalWord, hop, Opcode.number, Opcode.UnusedZero] using sel_high_eq_false_iff (w := w)
  | start => simpa [illegalWord, hop, Opcode.number, Opcode.UnusedZero] using start_unused_eq_zero_iff
  | rdt => simp [illegalWord, hop, Opcode.number, Opcode.UnusedZero, fieldB]
  | comp => simp [illegalWord, hop, Opcode.number, Opcode.UnusedZero, fieldSel]

theorem illegalWord_of_reserved {w : CmdWord} (h : ∀ op : Opcode, fieldOp w ≠ op.number) :
    illegalWord w = true := by
  have hne : fieldOp w ≠ 0 ∧ fieldOp w ≠ 1 ∧ fieldOp w ≠ 2 ∧ fieldOp w ≠ 3 ∧ fieldOp w ≠ 4 ∧
      fieldOp w ≠ 5 ∧ fieldOp w ≠ 6 ∧ fieldOp w ≠ 7 ∧ fieldOp w ≠ 8 :=
    ⟨h .nop, h .rst, h .rdc, h .ldk, h .rdt, h .start, h .letter, h .endMsg, h .comp⟩
  simp only [illegalWord, hne, or_self, if_false]

theorem illegalWord_eq_false_iff_exists {w : CmdWord} :
    illegalWord w = false ↔ ∃ op : Opcode, fieldOp w = op.number ∧ op.UnusedZero w := by
  constructor
  · intro h
    by_cases hop : ∃ op : Opcode, fieldOp w = op.number
    · obtain ⟨op, hop⟩ := hop
      exact ⟨op, hop, (illegalWord_eq_false_iff hop).mp h⟩
    · simp [illegalWord_of_reserved (not_exists.mp hop)] at h
  · rintro ⟨op, hop, hzero⟩
    exact (illegalWord_eq_false_iff hop).mpr hzero

theorem decode_eq_none_iff_illegalWord {w : CmdWord} : decode w = none ↔ illegalWord w = true := by
  rw [← Bool.not_eq_false, illegalWord_eq_false_iff_exists, ← Option.not_isSome_iff_eq_none,
    Option.isSome_iff_exists, not_iff_not]
  simp only [decode_eq_some_iff]
  constructor
  · rintro ⟨-, op, hop, hzero, -⟩
    exact ⟨op, hop, hzero⟩
  · rintro ⟨op, hop, hzero⟩
    exact ⟨_, op, hop, hzero, rfl⟩

/-- Settles O10: decoder and field reading ask the same of a word, for each opcode and for none. -/
theorem illegalWordsFaultAsIllegalCommand : Obligations.IllegalWordsFaultAsIllegalCommand :=
  ⟨fun _ => decode_eq_none_iff_illegalWord,
    fun _ s h => runWord_of_decode_none (decode_eq_none_iff_illegalWord.mpr h) s, by decide, by decide⟩

/-- Settles O14, by the host's next move. -/
theorem stepOnIllegalWordHardResetAndIdle : Obligations.StepOnIllegalWordHardResetAndIdle := by
  refine ⟨fun s w rest hmoves hd => ?_, fun s a rest hmoves => ?_, fun s => step_of_noMove⟩
  · rw [step_of_command hmoves, runWord_of_decode_none hd]
  · rw [step_of_hardReset hmoves]
    rfl

/-! ### Response codes -/

theorem ErrorCode.code_of_raised {c : ErrorCode} (h : c ≠ .lengthMismatch) :
    c.code = 1 ∨ c.code = 2 ∨ c.code = 4 ∨ c.code = 5 := by
  cases c with
  | lengthMismatch => exact absurd rfl h
  | _ => decide

/-- Settles O7: a fault answers and latches a raised code, a success answers 0 and latches nothing. -/
theorem responseStatIsZeroOrARaisedCode : Obligations.ResponseStatIsZeroOrARaisedCode := by
  intro w s t h
  obtain ⟨c, d, hc, rfl⟩ | ⟨⟨d, hd⟩, hfault⟩ := runWord_fault_or_success h
  · have hcode := ErrorCode.code_of_raised hc
    refine ⟨⟨_, State.takeFault_responses c d s, ?_⟩, fun hs => ?_⟩
    · rw [statOf_responseWord]
      exact .inr hcode
    · rw [State.takeFault_fault]
      split
      · intro h3
        simp [h3] at hcode
      · exact hs
  · refine ⟨⟨_, hd, .inl (statOf_responseWord _ _)⟩, fun hs => ?_⟩
    obtain hrst | hkept := hfault
    · rw [runWord_of_decode_some hrst] at h
      obtain rfl := next_inj h
      simp
    · rwa [hkept]

/-! ### KEY -/

/-- The writes of LDK `k, i, key[i]` for the indices of a list, in order. -/
def Memory.loadEntries (key : Table) (k : TableSel) : List Index → Memory → Memory
  | [], m => m
  | i :: is, m => Memory.loadEntries key k is (tabWrite m k i (entry key i))

/-- What every entry reads after the writes: the entries of the list are the key's, the others as before. -/
theorem tabRead_loadEntries (key : Table) (k k' : TableSel) (is : List Index) (m : Memory) (x : Index) :
    tabRead (Memory.loadEntries key k is m) k' x =
      if k' = k ∧ x ∈ is then entry key x else tabRead m k' x := by
  induction is generalizing m with
  | nil => simp [Memory.loadEntries]
  | cons i is ih =>
    rw [Memory.loadEntries, ih, tabRead_tabWrite]
    by_cases hx : x = i
    · subst hx
      by_cases hk : k' = k <;> simp [hk]
    · simp [hx]

theorem loadEntries_all (key : Table) (k : TableSel) (m : Memory) :
    Memory.loadEntries key k (List.finRange 26) m = m.setTable key k := by
  refine Memory.ext_read fun k' x => ?_
  rw [tabRead_loadEntries]
  by_cases hk : k' = k
  · subst hk
    simp [tabRead]
  · simp [hk, tabRead, Memory.table_setTable_other _ _ hk]

/-- The LDK commands of a list of indices, in a block that is not armed. -/
theorem runCommands_ldk {key : Table} {k : TableSel} (hkey : tableInRange key = true)
    (hk : k.isForward = true) (is : List Index) {s : State} (hs : s.armed = false) :
    runCommands (is.map fun i => encode (.ldk k (Letter.ofIndex i) (entry key i))) s =
      .next { s with
        mem := Memory.loadEntries key k is s.mem
        responses := s.responses ++ List.replicate is.length (responseWord 0 0) } := by
  induction is generalizing s with
  | nil => simp [runCommands, Memory.loadEntries]
  | cons i is ih =>
    obtain ⟨v, hv⟩ := Letter.exists_index (tableInRange_iff.mp hkey i)
    have hrun : runWord (encode (.ldk k (Letter.ofIndex i) (entry key i))) s =
        .next ((s.withMem (tabWrite s.mem k i (entry key i))).answerOk 0) := by
      have hwf : (Instr.ldk k (Letter.ofIndex i) (entry key i)).wf = true := hk
      rw [runWord_of_decode_some (decode_encode hwf), hv, exec_ldk_ok hk hs]
    rw [List.map_cons, runCommands_cons hrun, ih (by simpa using hs)]
    simp [Memory.loadEntries, List.replicate_succ, State.answerOk, State.respond, State.withMem]

/-- KEY for either forward table (spec/30_encoding.md R82). -/
theorem runCommands_keyLoad {key : Table} {k : TableSel} (hkey : tableInRange key = true)
    (hk : k.isForward = true) {s : State} (hs : s.armed = false) :
    runCommands ((keyLoad k key).map encode) s =
      .next { s with
        mem := s.mem.setTable key k
        responses := s.responses ++ List.replicate 26 0x0000 } := by
  have hrun := runCommands_ldk hkey hk (List.finRange 26) hs
  rw [loadEntries_all, List.length_finRange] at hrun
  rw [keyLoad, List.map_map]
  exact hrun

/-- Settles O51: each LDK writes its entry, and the 26 indices are all of them. -/
theorem keyLoadWritesTheWholeTable : Obligations.KeyLoadWritesTheWholeTable := by
  intro key s hletters hs
  have hkey : tableInRange key = true :=
    tableInRange_iff.mpr fun i => Letter.isLetter_iff.mpr (hletters i)
  exact ⟨runCommands_keyLoad hkey rfl hs, runCommands_keyLoad hkey rfl hs⟩

/-! ### Assembler -/

/-- Settles O52: the assembler evaluated on each example line. -/
theorem assemblerEmitsTheExampleWords : Obligations.AssemblerEmitsTheExampleWords := by
  unfold Obligations.AssemblerEmitsTheExampleWords
  decide

end Sys2Proof.Machine
end

section
/-! PROOFS. Family 40_units (spec/40_units.md): TA is a swap, so PC and PCI exchange entries (R90 to R93),
EVOLVE keeps the four tables paired (R94, R97), VALID and INVERT are about permutations (R95, R96), and the
units are visible through commands (R99). -/

namespace Sys2Proof.Machine

/-! ### The transposition -/

@[simp] theorem transposeLetter_left (a b : Index) : transposeLetter a b a = b := by
  rw [transposeLetter_eq_swap, Equiv.swap_apply_left]

@[simp] theorem transposeLetter_right (a b : Index) : transposeLetter a b b = a := by
  rw [transposeLetter_eq_swap, Equiv.swap_apply_right]

theorem transposeLetter_of_ne {a b x : Index} (ha : x ≠ a) (hb : x ≠ b) : transposeLetter a b x = x := by
  rw [transposeLetter_eq_swap, Equiv.swap_apply_of_ne_of_ne ha hb]

@[simp] theorem transposeLetter_self (a x : Index) : transposeLetter a a x = x := by
  rw [transposeLetter_eq_swap, Equiv.swap_self, Equiv.refl_apply]

theorem transposeLetter_comm (a b x : Index) : transposeLetter a b x = transposeLetter b a x := by
  rw [transposeLetter_eq_swap, transposeLetter_eq_swap, Equiv.swap_comm]

theorem transposeLetter_involutive (a b : Index) : Function.Involutive (transposeLetter a b) := by
  intro x
  rw [transposeLetter_eq_swap, transposeLetter_eq_swap, Equiv.swap_apply_self]

theorem transposeLetter_value (a b x : Index) :
    transposeLetter a b x = a ∨ transposeLetter a b x = b ∨ transposeLetter a b x = x := by
  by_cases ha : x = a
  · subst ha
    exact .inr (.inl (transposeLetter_left x b))
  · by_cases hb : x = b
    · subst hb
      exact .inl (transposeLetter_right a x)
    · exact .inr (.inr (transposeLetter_of_ne ha hb))

/-- Settles O37: TA is Mathlib's `Equiv.swap`. -/
theorem transpositionSwapsItsTwoLetters : Obligations.TranspositionSwapsItsTwoLetters :=
  fun a b => ⟨transposeLetter_left a b, transposeLetter_right a b, fun _ => transposeLetter_of_ne,
    transposeLetter_self a, transposeLetter_comm a b, transposeLetter_involutive a b,
    (transposeLetter_involutive a b).bijective, transposeLetter_value a b⟩

/-! ### The composition and its inverse table -/

theorem composeTable_self (T : Table) (a : Index) : composeTable T a a = T :=
  table_ext fun x => by rw [entry_composeTable, transposeLetter_self]

/-- Settles O38: an entry of PC is an entry of the table before it, at the transposed position. -/
theorem composeExchangesTwoPositions : Obligations.ComposeExchangesTwoPositions := by
  intro T a b
  refine ⟨entry_composeTable T a b, ?_, ?_, fun x ha hb => entry_composeTable_of_ne ha hb T,
    composeTable_self T a⟩
  · rw [entry_composeTable, transposeLetter_left]
  · rw [entry_composeTable, transposeLetter_right]

/-- PCI sends each image to the transposed preimage: `(T ∘ (a b))⁻¹ = (a b) ∘ T⁻¹` (spec/40_units.md R93). -/
theorem entry_composeInverse_of_entry {T TI : Table} (hT : validTable T = true) (hTI : IsInverse T TI)
    (a b : Index) {x y : Index} (hy : entry TI y = Letter.ofIndex x) :
    entry (composeInverse T TI a b) y = Letter.ofIndex (transposeLetter a b x) := by
  obtain ⟨σ, hσ⟩ := exists_perm_of_valid hT
  have hσi : ∀ y, entry TI y = Letter.ofIndex (σ.symm y) := (isInverse_of_perm hσ).mp hTI
  have hx : σ.symm y = x := by rwa [hσi, Letter.ofIndex_inj] at hy
  rw [entry_composeInverse_perm hσ hσi, advance_symm_apply, hx, transposeLetter_eq_swap]

theorem composeInverse_self {T TI : Table} (hT : validTable T = true) (hTI : IsInverse T TI) (a : Index) :
    composeInverse T TI a a = TI := by
  refine table_ext fun y => ?_
  obtain ⟨hletters, -⟩ := validTable_iff.mp (validTable_of_isInverse hT hTI)
  obtain ⟨x, hx⟩ := Letter.exists_index (hletters y)
  rw [entry_composeInverse_of_entry hT hTI a a hx, transposeLetter_self, hx]

/-- Settles O39: the entries of PCI are those of `(a b) ∘ T⁻¹`, and TI has `a` and `b` at their images. -/
theorem composeInverseIsTheInverseOfTheComposition :
    Obligations.ComposeInverseIsTheInverseOfTheComposition := by
  intro T TI a b hT hTI
  have hkey : ∀ x y, entry TI y = Letter.ofIndex x →
      entry (composeInverse T TI a b) y = Letter.ofIndex (transposeLetter a b x) :=
    fun _ _ => entry_composeInverse_of_entry hT hTI a b
  have hTIa : ∀ y, Letter.ofIndex y = entry T a → entry TI y = Letter.ofIndex a :=
    fun y hy => hTI a y hy.symm
  have hTIb : ∀ y, Letter.ofIndex y = entry T b → entry TI y = Letter.ofIndex b :=
    fun y hy => hTI b y hy.symm
  have hatb : ∀ y, Letter.ofIndex y = entry T b → entry (composeInverse T TI a b) y = Letter.ofIndex a :=
    fun y hy => by rw [hkey b y (hTIb y hy), transposeLetter_right]
  have hata : ∀ y, Letter.ofIndex y = entry T a → entry (composeInverse T TI a b) y = Letter.ofIndex b :=
    fun y hy => by rw [hkey a y (hTIa y hy), transposeLetter_left]
  exact ⟨hatb, hata, fun y ha hb => entry_composeInverse_of_ne ha hb TI,
    fun ya yb ha hb => ⟨(hata ya ha).trans (hTIb yb hb).symm, (hatb yb hb).trans (hTIa ya ha).symm⟩,
    hkey, composeInverse_self hT hTI a, isInverse_compose hT hTI a b⟩

/-! ### EVOLVE -/

theorem Memory.Paired.evolve_self {m : Memory} (h : m.Paired) (a : Index) : m.evolve a a = m := by
  obtain ⟨hσ, hτ, hσi, hτi⟩ := h
  simp only [Memory.evolve, composeTable_self, composeInverse_self hσ hσi, composeInverse_self hτ hτi]

/-- Settles O40: an armed state's tables are paired (INV2), which makes an update with equal letters the identity. -/
theorem evolveAdvancesAllFourTablesAtOnce : Obligations.EvolveAdvancesAllFourTablesAtOnce := by
  rintro a b s ⟨-, harmedPaired, -, -⟩ harmed
  refine ⟨rfl, ?self, fun hequal => ?equal⟩
  case self => rw [State.evolve, Memory.Paired.evolve_self (harmedPaired harmed)]; rfl
  case equal => rw [State.evolve_mem, Memory.evolve_sigma, Memory.evolve_tau, hequal]

theorem Memory.Paired.foldl_evolve {m : Memory} (h : m.Paired) (pairs : List (Index × Index)) :
    (pairs.foldl (fun m p => m.evolve p.1 p.2) m).Paired := by
  induction pairs generalizing m with
  | nil => exact h
  | cons p pairs ih =>
    rw [List.foldl_cons]
    exact ih (h.evolve p.1 p.2)

/-- Settles O41, by induction on the update steps, each of which keeps the tables paired. -/
theorem evolutionPreservesBijections : Obligations.EvolutionPreservesBijections := by
  intro pairs m hσ hτ hσi hτi
  have hpaired : m.Paired := ⟨hσ, hτ, hσi, hτi⟩
  exact hpaired.foldl_evolve pairs

/-! ### VALID and INVERT -/

theorem validTable_iff_exists_tableOf {T : Table} :
    validTable T = true ↔ ∃ σ : Permutation, T = tableOf σ := by
  constructor
  · intro hT
    obtain ⟨σ, hσ⟩ := exists_perm_of_valid hT
    exact ⟨σ, eq_tableOf hσ⟩
  · rintro ⟨σ, rfl⟩
    exact validTable_tableOf σ

/-- Settles O42: with the range given, distinctness is all that VALID asks, and it makes the table's map injective. -/
theorem validTableIsABijection : Obligations.ValidTableIsABijection := by
  intro T hrange
  have hletters : ∀ i : Index, Letter.isLetter (entry T i) = true :=
    fun i => Letter.isLetter_iff.mpr (hrange i)
  exact ⟨validTable_iff.trans (and_iff_right hletters), validTable_iff_exists_tableOf⟩

/-- Settles O43: on the table of a permutation INVERT is the inverse permutation. -/
theorem invertTableSwapsDomainAndImage : Obligations.InvertTableSwapsDomainAndImage := by
  intro T hT
  have hinverse : IsInverse T (invertTable T) := isInverse_invertTable hT
  refine ⟨hinverse, validTable_of_isInverse hT hinverse, ?_⟩
  obtain ⟨σ, rfl⟩ := validTable_iff_exists_tableOf.mp hT
  rw [invertTable_tableOf, invertTable_tableOf, Equiv.symm_symm]

/-! ### The units seen through commands -/

theorem runWord_encode {i : Instr} (h : i.wf = true) (s : State) : runWord (encode i) s = exec i s :=
  runWord_of_decode_some (decode_encode h) s

/-- START and COMP under a valid key: the inverse tables are written, then all four tables evolve. -/
theorem runCommands_start_comp {s : State} (hσ : validTable s.mem.sigma = true)
    (hτ : validTable s.mem.tau = true) (d : Direction) (a b : Index) (ws : List CmdWord) :
    runCommands (encode (.start d) :: encode (.comp (Letter.ofIndex a) (Letter.ofIndex b)) :: ws) s =
      runCommands ws
        (((((s.withMem s.mem.writeInverses).openMessage d).answerOk 0).evolve a b).answerOk 0) := by
  rw [runCommands_cons ((runWord_encode rfl s).trans (exec_start_ok d hσ hτ)),
    runCommands_cons ((runWord_encode rfl _).trans (exec_comp_ok a b rfl rfl))]

theorem runCommands_rdt (k : TableSel) (x : Index) (ws : List CmdWord) (s : State) :
    runCommands (encode (.rdt k (Letter.ofIndex x)) :: ws) s =
      runCommands ws (s.answerOk (Letter.toData (tabRead s.mem k x))) :=
  runCommands_cons ((runWord_encode rfl s).trans (exec_rdt_ok k x s))

theorem responseWord_zero : responseWord 0#4 0#12 = 0#16 := by decide

/-- Settles O50: RDT reads the tables that START and COMP leave, which in the reset state are made of identities. -/
theorem unitsAreVisibleThroughCommands : Obligations.UnitsAreVisibleThroughCommands := by
  refine ⟨fun a b x => ?reset, fun a b x s hσ hτ => ?key⟩
  case reset =>
    have hσ : validTable State.reset.mem.sigma = true := validTable_identityTable
    have hτ : validTable State.reset.mem.tau = true := validTable_identityTable
    rw [runCommands_start_comp hσ hτ, runCommands_rdt]
    exact ⟨_, rfl, by simp [responseWord_zero, Letter.toData]⟩
  case key =>
    rw [runCommands_start_comp hσ hτ, runCommands_rdt, runCommands_rdt]
    exact ⟨_, rfl, by simp [responseWord_zero, Letter.toData]⟩

end Sys2Proof.Machine
end

section
/-! PROOFS. Family 41_key_commands (spec/41_key_commands.md): the words of LDK and RDT by value (R70), and what
LDK, RDT and START do on every path (R110 to R112). -/

namespace Sys2Proof

/-- An appended word by value: the high part counts in units of the low part's size. -/
theorem toNat_append_eq_add {m n : Nat} (x : BitVec m) (y : BitVec n) :
    (x ++ y).toNat = x.toNat * 2 ^ n + y.toNat := by
  rw [BitVec.toNat_append, ← Nat.shiftLeft_add_eq_or_of_lt y.isLt, Nat.shiftLeft_eq]

/-- A command word by value (spec/30_encoding.md R70). -/
theorem toNat_commandWord (op : BitVec 4) (sel : BitVec 2) (a b : BitVec 5) :
    (commandWord op sel a b).toNat = op.toNat * 4096 + sel.toNat * 1024 + a.toNat * 32 + b.toNat := by
  simp only [commandWord, toNat_append_eq_add]
  omega

theorem toNat_encode_ldk (t : TableSel) (i v : Letter) :
    (encode (.ldk t i v)).toNat = 0x3000 + t.code.toNat * 1024 + i.toNat * 32 + v.toNat :=
  toNat_commandWord 3 t.code i v

theorem toNat_encode_rdt (t : TableSel) (i : Letter) :
    (encode (.rdt t i)).toNat = 0x4000 + t.code.toNat * 1024 + i.toNat * 32 :=
  toNat_commandWord 4 t.code i 0

end Sys2Proof

namespace Sys2Proof.Machine

/-- Settles O23: the one write of LDK is `tabWrite`, whose read lemma gives every entry. -/
theorem ldkWritesOneKeyTableEntry : Obligations.LdkWritesOneKeyTableEntry := by
  refine ⟨fun i v => ⟨toNat_encode_ldk .sigma i v, toNat_encode_ldk .tau i v⟩, fun k i v s hk =>
    ⟨fun hs => ?armed, fun hs hrange => ?range, fun hs j hi hv => ?written⟩⟩
  case armed => exact exec_ldk_armed hk hs i v
  case range => exact exec_ldk_range hk hs hrange
  case written =>
    obtain ⟨x, rfl⟩ := Letter.exists_index (Letter.isLetter_iff.mpr hv)
    subst hi
    exact ⟨tabWrite s.mem k j (Letter.ofIndex x), exec_ldk_ok hk hs j x,
      fun sel y => tabRead_tabWrite s.mem k sel j y (Letter.ofIndex x)⟩

/-- Settles O25: RDT asks nothing of the state, and a success changes only the responses. -/
theorem rdtAnswersTheStoredEntry : Obligations.RdtAnswersTheStoredEntry :=
  ⟨fun i => ⟨toNat_encode_rdt .sigma i, toNat_encode_rdt .tau i, toNat_encode_rdt .sigmaInv i,
      toNat_encode_rdt .tauInv i⟩,
    exec_rdt_ok, fun k _ s hi => exec_rdt_range k s hi⟩

/-- The bits of a failed START's `DATA` (spec/41_key_commands.md R112). -/
theorem startFaultData_bits : ∀ sigmaBad tauBad : Bool,
    (startFaultData sigmaBad tauBad).getLsbD 0 = sigmaBad ∧
      (startFaultData sigmaBad tauBad).getLsbD 1 = tauBad ∧
      (startFaultData sigmaBad tauBad).extractLsb' 2 10 = 0 := by
  decide

/-- Settles O26: VALID of the two forward tables picks the path, and the fault's `DATA` reports both. -/
theorem startValidatesTheKeyPairAndOpensAMessage : Obligations.StartValidatesTheKeyPairAndOpensAMessage := by
  refine ⟨by decide, by decide, fun d s => ⟨fun hσ hτ => ?ok, fun hbad => ?bad⟩⟩
  case ok =>
    rw [exec_start_ok d hσ hτ]
    simp [State.answerOk, State.respond, State.openMessage, State.withMem, Memory.writeInverses,
      responseWord_zero]
  case bad =>
    exact ⟨_, exec_start_invalid d hbad,
      startFaultData_bits (!validTable s.mem.sigma) (!validTable s.mem.tau)⟩

end Sys2Proof.Machine
end

section
/-! PROOFS. Family 42_letter_commands, the mathematics (spec/42_letter_commands.md R133 to R139): decipher
undoes encipher, pair by pair, and what an output letter is at each position of a message. -/

namespace Sys2Proof.Machine

/-! ### One step of the key pair -/

@[simp] theorem advance_left (σ : Permutation) (a b : Index) : advance σ a b a = σ b := by
  simp [advance]

@[simp] theorem advance_right (σ : Permutation) (a b : Index) : advance σ a b b = σ a := by
  simp [advance]

@[simp] theorem advance_self (σ : Permutation) (a : Index) : advance σ a a = σ := by
  simp [advance]

theorem advance_comm (σ : Permutation) (a b : Index) : advance σ a b = advance σ b a := by
  rw [advance, advance, Equiv.swap_comm]

@[simp] theorem advance_advance (σ : Permutation) (a b : Index) : advance (advance σ a b) a b = σ := by
  rw [advance, advance, ← Equiv.trans_assoc, Equiv.swap_swap, Equiv.refl_trans]

/-! ### Round trip and length -/

theorem decipher_encipher (σ τ : Permutation) (m : List Index) : decipher σ τ (encipher σ τ m) = m := by
  induction m using List.twoStepInduction generalizing σ τ with
  | nil => rfl
  | singleton a => simp [encipher, decipher]
  | cons_cons a b m ih _ => simp [encipher, decipher, ih]

theorem encipher_decipher (σ τ : Permutation) (c : List Index) : encipher σ τ (decipher σ τ c) = c := by
  induction c using List.twoStepInduction generalizing σ τ with
  | nil => rfl
  | singleton y => simp [encipher, decipher]
  | cons_cons y z c ih _ => simp [encipher, decipher, ih]

/-- Settles O44: the recovered plaintext is the plaintext, so it evolves the key pair alike. -/
theorem decipherInvertsEncipher : Obligations.DecipherInvertsEncipher := by
  intro σ τ m
  rw [decipher_encipher]
  exact ⟨rfl, encipher_decipher σ τ m, rfl, rfl⟩

theorem length_encipher (σ τ : Permutation) (m : List Index) : (encipher σ τ m).length = m.length := by
  induction m using List.twoStepInduction generalizing σ τ with
  | nil | singleton => rfl
  | cons_cons a b m ih _ => simp [encipher, ih]

/-- Decipher has a length like encipher, whose output it gives back. -/
theorem length_decipher (σ τ : Permutation) (c : List Index) : (decipher σ τ c).length = c.length := by
  rw [← length_encipher σ τ (decipher σ τ c), encipher_decipher]

/-- Settles O45, by induction on the pairs for encipher, and through the round trip for decipher. -/
theorem encipherPreservesLength : Obligations.EncipherPreservesLength :=
  fun σ τ m => ⟨length_encipher σ τ m, length_decipher σ τ m⟩

/-! ### Output letters by position -/

/-- Complete pairs of a plaintext can be taken off the front, each with its step of the permutation. -/
theorem evolved_append (σ : Permutation) {k : List Index} (hk : Even k.length) (m : List Index) :
    evolved σ (k ++ m) = evolved (evolved σ k) m := by
  induction k using List.twoStepInduction generalizing σ with
  | nil => rfl
  | singleton => simp at hk
  | cons_cons a b k ih _ => exact ih _ (by simpa [Nat.even_add_one] using hk)

/-- After complete pairs encipher goes on as from the start, under the evolved key pair. -/
theorem encipher_append (σ τ : Permutation) {k : List Index} (hk : Even k.length) (m : List Index) :
    encipher σ τ (k ++ m) = encipher σ τ k ++ encipher (evolved σ k) (evolved τ k) m := by
  induction k using List.twoStepInduction generalizing σ τ with
  | nil => rfl
  | singleton => simp at hk
  | cons_cons a b k ih _ =>
    have hk' : Even k.length := by simpa [Nat.even_add_one] using hk
    simp [encipher, evolved, ih _ _ hk']

/-- The outputs from position `2n` on are those of the rest of the message under the evolved key pair. -/
theorem getElem?_encipher_add (σ τ : Permutation) {m : List Index} {n : Nat} (h : 2 * n ≤ m.length) (i : Nat) :
    (encipher σ τ m)[2 * n + i]? =
      (encipher (evolved σ (m.take (2 * n))) (evolved τ (m.take (2 * n))) (m.drop (2 * n)))[i]? := by
  have hlen : (m.take (2 * n)).length = 2 * n := by simpa using h
  have happ := encipher_append σ τ (k := m.take (2 * n)) (by simp [hlen]) (m.drop (2 * n))
  rw [List.take_append_drop] at happ
  rw [happ, List.getElem?_append_right (by simp [length_encipher, hlen]), length_encipher, hlen,
    Nat.add_sub_cancel_left]

theorem evolved_take_add_two (σ : Permutation) {m : List Index} {n : Nat} {a b : Index} {rest : List Index}
    (h : m.drop (2 * n) = a :: b :: rest) :
    evolved σ (m.take (2 * n + 2)) = advance (evolved σ (m.take (2 * n))) a b := by
  have hlen : (m.take (2 * n)).length = 2 * n := by
    have := congrArg List.length h
    simp at this ⊢
    omega
  rw [List.take_add, h, evolved_append σ (by simp [hlen])]
  rfl

/-- Settles O46: outputs `2n` to `2n + 3` are those of a two-pair message under the key pair evolved so far. -/
theorem repeatedLettersLeak : Obligations.RepeatedLettersLeak := by
  intro σ τ m n a b c ha hb hc
  obtain ⟨rest, hdrop⟩ : ∃ rest, m.drop (2 * n) = a :: b :: c :: rest := by
    obtain ⟨h0, rfl⟩ := List.getElem?_eq_some_iff.mp ha
    obtain ⟨h1, rfl⟩ := List.getElem?_eq_some_iff.mp hb
    obtain ⟨h2, rfl⟩ := List.getElem?_eq_some_iff.mp hc
    exact ⟨_, by rw [List.drop_eq_getElem_cons h0, List.drop_eq_getElem_cons h1, List.drop_eq_getElem_cons h2]⟩
  have hn : 2 * n ≤ m.length := by
    have := congrArg List.length hdrop
    simp at this
    omega
  have hout := getElem?_encipher_add σ τ hn
  rw [hdrop] at hout
  have hthird : (encipher σ τ m)[2 * n + 2]? = some (advance (evolved σ (m.take (2 * n))) a b c) := by
    rw [hout]
    cases rest <;> rfl
  refine ⟨?repeated, ?alternating, ?equal, ?second⟩
  case repeated =>
    rintro rfl
    rw [hthird, advance_right]
    exact (hout 0).symm
  case alternating =>
    rintro rfl
    rw [hthird, advance_left]
  case equal =>
    rintro rfl
    rw [evolved_take_add_two σ hdrop, evolved_take_add_two τ hdrop, advance_self, advance_self]
    exact ⟨rfl, rfl⟩
  case second =>
    intro hd
    have hfourth : (a :: b :: c :: rest)[3]? = some a := by rw [← hdrop, List.getElem?_drop, hd]
    cases rest with
    | nil => simp at hfourth
    | cons d rest =>
      obtain rfl : d = a := by simpa using hfourth
      rw [hout 3, hout 1]
      simp [encipher]

end Sys2Proof.Machine
end

section
/-! PROOFS. Family 42_letter_commands, the commands (spec/42_letter_commands.md R130 to R132, R142): LET, END
and COMP on every path, and the message state machine. -/

namespace Sys2Proof

theorem toNat_encode_letter (x : Letter) : (encode (.letter x)).toNat = 0x6000 + x.toNat :=
  toNat_commandWord 6 0 0 x

theorem toNat_encode_comp (a b : Letter) : (encode (.comp a b)).toNat = 0x8000 + a.toNat * 32 + b.toNat :=
  toNat_commandWord 8 0 a b

end Sys2Proof

namespace Sys2Proof.Machine

/-! ### LET -/

theorem letterOut_eq {s : State} {d : Direction} {p : Bool} (hd : s.dir = d) (hp : s.phase = p) (x : Index) :
    letterOut x s = tabRead s.mem (letterTable d p) x := by
  rw [letterOut, hd, hp]

theorem plainLetter_encipher {s : State} (hd : s.dir = .encipher) (x : Index) :
    plainLetter x s = Letter.ofIndex x := by
  rw [plainLetter, hd]

theorem plainLetter_decipher {s : State} (hd : s.dir = .decipher) (x : Index) :
    plainLetter x s = letterOut x s := by
  rw [plainLetter, hd]

theorem letterFirst_eq (x : Index) (s : State) :
    letterFirst x s = { s with
      hold := plainLetter x s
      phase := true
      responses := s.responses ++ [responseWord 0 (letterOut x s).toData] } :=
  rfl

theorem letterSecond_eq (x h p : Index) (s : State) :
    letterSecond x h p s = { s with
      mem := s.mem.evolve h p
      hold := 0
      phase := false
      responses := s.responses ++ [responseWord 0 (letterOut x s).toData] } := by
  apply State.eq_of_fields <;> simp [letterSecond]

/-- Settles O27: the phase picks the path, the direction the table and the plaintext letter. -/
theorem letSubstitutesAndEvolves : Obligations.LetSubstitutesAndEvolves := by
  refine ⟨toNat_encode_letter, fun x s hs => exec_letter_idle x hs,
    fun x s hs hrange => exec_letter_range hs hrange, fun x s hs hp hd => ?firstEncipher,
    fun x s hs hp hd => ?firstDecipher, fun x h s hs hp hd hh => ?secondEncipher,
    fun x h p s hs hp hd hh hpl => ?secondDecipher⟩
  case firstEncipher =>
    rw [exec_letter_first x hs hp, letterFirst_eq, plainLetter_encipher hd, letterOut_eq hd hp]
    rfl
  case firstDecipher =>
    rw [exec_letter_first x hs hp, letterFirst_eq, plainLetter_decipher hd, letterOut_eq hd hp]
    rfl
  case secondEncipher =>
    rw [exec_letter_second x hs hp hh (plainLetter_encipher hd x), letterSecond_eq, letterOut_eq hd hp]
    rfl
  case secondDecipher =>
    have hout : letterOut x s = Letter.ofIndex p := (letterOut_eq hd hp x).trans hpl
    rw [exec_letter_second x hs hp hh ((plainLetter_decipher hd x).trans hout), letterSecond_eq, hout]
    rfl

/-- Settles O28: under INV1 LET completes, and only its two successes fit an open message and a letter. -/
theorem letOfALetterSucceedsInAnOpenMessage : Obligations.LetOfALetterSucceedsInAnOpenMessage := by
  intro x s hrange hs hx
  obtain ⟨t, ht⟩ := exec_completes (.letter x) hrange
  obtain ⟨hmem, -, -⟩ := hrange
  cases exec_effect ht with
  | letterIdle hidle => simp [hs] at hidle
  | letterRange _ hlarge => omega
  | letterFirst _ hp k =>
    have hout := Letter.isLetter_iff.mp (letterOut_isLetter hmem k)
    rw [letterFirst_eq] at ht
    exact ⟨_, letterOut k s, ht, hout, rfl, hs, by rw [hp]; rfl, rfl, rfl⟩
  | letterSecond _ hp k =>
    have hout := Letter.isLetter_iff.mp (letterOut_isLetter hmem k)
    rw [letterSecond_eq] at ht
    exact ⟨_, letterOut k s, ht, hout, rfl, hs, by rw [hp]; rfl, rfl, rfl⟩

/-! ### END -/

theorem responseWord_endData (phase : Bool) :
    responseWord 0 (endData phase) = if phase = true then 0x0001 else 0x0000 := by
  cases phase <;> decide

/-- Settles O29: `ARMED` picks the path, and the answered bit is the old `PHASE`. -/
theorem endClosesTheMessageAndAnswersItsParity : Obligations.EndClosesTheMessageAndAnswersItsParity := by
  refine ⟨by decide, fun s => ⟨fun hs => exec_end_idle hs, fun hs => ?closed⟩⟩
  case closed =>
    rw [exec_end_ok hs, State.answerOk, responseWord_endData]
    rfl

/-! ### Tables that hold a key pair -/

/-- The table space of an open message under the key pair `(σ, τ)`: both tables and their inverses (INV2). -/
def keyMemory (σ τ : Permutation) : Memory where
  sigma := tableOf σ
  tau := tableOf τ
  sigmaInv := tableOf σ.symm
  tauInv := tableOf τ.symm

theorem composeTable_tableOf (σ : Permutation) (a b : Index) :
    composeTable (tableOf σ) a b = tableOf (advance σ a b) :=
  eq_tableOf (entry_composeTable_perm (entry_tableOf σ) a b)

theorem composeInverse_tableOf (σ : Permutation) (a b : Index) :
    composeInverse (tableOf σ) (tableOf σ.symm) a b = tableOf (advance σ a b).symm :=
  eq_tableOf (entry_composeInverse_perm (entry_tableOf σ) (entry_tableOf σ.symm) a b)

/-- EVOLVE on the tables is a step of both permutations (spec/40_units.md R94). -/
@[simp] theorem evolve_keyMemory (σ τ : Permutation) (a b : Index) :
    (keyMemory σ τ).evolve a b = keyMemory (advance σ a b) (advance τ a b) := by
  simp only [Memory.evolve, keyMemory, composeTable_tableOf, composeInverse_tableOf]

theorem exists_inverse_tables {T TI : Table} (hT : validTable T = true) (hTI : IsInverse T TI) :
    ∃ σ : Permutation, T = tableOf σ ∧ TI = tableOf σ.symm := by
  obtain ⟨σ, hσ⟩ := exists_perm_of_valid hT
  exact ⟨σ, eq_tableOf hσ, eq_tableOf ((isInverse_of_perm hσ).mp hTI)⟩

/-- What INV2 says of an armed state's tables: they hold a key pair. -/
theorem Memory.Paired.exists_keyMemory {m : Memory} (h : m.Paired) : ∃ σ τ, m = keyMemory σ τ := by
  obtain ⟨hσ, hτ, hσi, hτi⟩ := h
  obtain ⟨σ, hσ, hσi⟩ := exists_inverse_tables hσ hσi
  obtain ⟨τ, hτ, hτi⟩ := exists_inverse_tables hτ hτi
  exact ⟨σ, τ, by cases m; subst hσ hτ hσi hτi; rfl⟩

/-! ### COMP -/

theorem Memory.Paired.evolve_comm {m : Memory} (h : m.Paired) (a b : Index) : m.evolve a b = m.evolve b a := by
  obtain ⟨σ, τ, rfl⟩ := h.exists_keyMemory
  rw [evolve_keyMemory, evolve_keyMemory, advance_comm σ, advance_comm τ]

theorem Memory.Paired.evolve_evolve {m : Memory} (h : m.Paired) (a b : Index) :
    (m.evolve a b).evolve a b = m := by
  obtain ⟨σ, τ, rfl⟩ := h.exists_keyMemory
  rw [evolve_keyMemory, evolve_keyMemory, advance_advance, advance_advance]

theorem exec_comp_eq (a b : Index) {s : State} (hs : s.armed = true) (hp : s.phase = false) :
    exec (.comp (Letter.ofIndex a) (Letter.ofIndex b)) s =
      .next { s with mem := s.mem.evolve a b, responses := s.responses ++ [0x0000] } := by
  rw [exec_comp_ok a b hs hp]
  exact congrArg Host.Outcome.next (by apply State.eq_of_fields <;> simp [responseWord_zero])

theorem runCommands_comp (a b : Index) {s : State} (hs : s.armed = true) (hp : s.phase = false)
    (ws : List CmdWord) :
    runCommands (encode (.comp (Letter.ofIndex a) (Letter.ofIndex b)) :: ws) s =
      runCommands ws { s with mem := s.mem.evolve a b, responses := s.responses ++ [0x0000] } :=
  runCommands_cons ((runWord_encode rfl s).trans (exec_comp_eq a b hs hp))

/-- The two letters of a pair: the first is held, the second completes it. -/
theorem runCommands_letter_pair (x y : Index) {p q : Index} {s : State} (hs : s.armed = true)
    (hphase : s.phase = false) (hp : plainLetter x s = Letter.ofIndex p)
    (hq : plainLetter y (letterFirst x s) = Letter.ofIndex q) (ws : List CmdWord) :
    runCommands (encode (.letter (Letter.ofIndex x)) :: encode (.letter (Letter.ofIndex y)) :: ws) s =
      runCommands ws (letterSecond y p q (letterFirst x s)) := by
  rw [runCommands_cons ((runWord_encode rfl s).trans (exec_letter_first x hs hphase)),
    runCommands_cons ((runWord_encode rfl _).trans
      (exec_letter_second (s := letterFirst x s) (h := p) y hs rfl hp hq))]

/-- Settles O30: COMP is EVOLVE with its answer, and so are two LETs but for theirs, since HOLD is 0 between
pairs (INV3). -/
theorem compComposesBothTables : Obligations.CompComposesBothTables := by
  refine ⟨toNat_encode_comp, fun a b s h => exec_comp_sequence a b h,
    fun a b s hs hp hrange => exec_comp_range hs hp hrange, fun a b s hs hp => ?composed,
    fun a b s hinv hs hp => ⟨fun hd => ?letters, ?self, ?comm, ?twice⟩⟩
  case composed => exact exec_comp_eq a b hs hp
  all_goals obtain ⟨-, harmedPaired, ⟨-, hclean⟩, -⟩ := hinv
  all_goals have hpaired : s.mem.Paired := harmedPaired hs
  case letters =>
    refine ⟨_, runCommands_letter_pair a b hs hp (plainLetter_encipher hd a)
      (plainLetter_encipher (s := letterFirst a s) hd b) [], ?_⟩
    rw [exec_comp_eq a b hs hp, letterSecond_eq]
    exact congrArg Host.Outcome.next (State.eq_of_fields rfl rfl rfl hp (hclean hp) rfl rfl rfl)
  case self => rw [exec_comp_eq a a hs hp, hpaired.evolve_self]
  case comm => rw [exec_comp_eq a b hs hp, exec_comp_eq b a hs hp, hpaired.evolve_comm]
  case twice =>
    rw [runCommands_comp a b hs hp, runCommands_comp a b, hpaired.evolve_evolve, List.append_assoc]
    · rfl
    · exact hs
    · exact hp

/-! ### The message state machine -/

theorem messageState_idle {s : State} (hs : s.armed = false) (hp : s.phase = false) : s.messageState = .idle := by
  rw [State.messageState, hs, hp]

theorem messageState_first {s : State} (hs : s.armed = true) (hp : s.phase = false) : s.messageState = .first := by
  rw [State.messageState, hs, hp]

theorem messageState_second {s : State} (hs : s.armed = true) (hp : s.phase = true) : s.messageState = .second := by
  rw [State.messageState, hs, hp]

/-- The state of the machine is `ARMED` and `PHASE` alone. -/
theorem messageState_congr {s t : State} (hs : t.armed = s.armed) (hp : t.phase = s.phase) :
    t.messageState = s.messageState := by
  rw [State.messageState, State.messageState, hs, hp]

theorem messageState_takeFault (c : ErrorCode) (d : Data) (s : State) : (s.takeFault c d).messageState = .idle :=
  messageState_idle rfl rfl

theorem messageState_ne_idle {s : State} (hs : s.armed = true) : s.messageState ≠ .idle := by
  cases hp : s.phase
  · simp [messageState_first hs hp]
  · simp [messageState_second hs hp]

/-- One row of R142's table for each way a command completes: a fault, or a success that the table allows. -/
theorem effect_transition {i : Instr} {s t : State} (hclean : s.IdleIsClean) (e : Effect s i t) :
    (∃ c d, t = s.takeFault c d) ∨
      (∃ d, t.responses = s.responses ++ [responseWord 0 d]) ∧
        s.messageState.allows i = true ∧ t.messageState = s.messageState.after i := by
  cases e with
  | nop | rdc | rdt => exact .inr ⟨⟨_, rfl⟩, rfl, messageState_congr rfl rfl⟩
  | rst => exact .inr ⟨⟨_, rfl⟩, rfl, messageState_idle rfl rfl⟩
  | start => exact .inr ⟨⟨0, by simp⟩, rfl, messageState_first rfl rfl⟩
  | ldk _ hs =>
    have hidle := messageState_idle hs (hclean.1 hs)
    exact .inr ⟨⟨_, rfl⟩, by simp [hidle, MessageState.allows], messageState_congr rfl rfl⟩
  | comp hs hp =>
    have hfirst := messageState_first hs hp
    exact .inr ⟨⟨0, by simp⟩, by simp [hfirst, MessageState.allows], messageState_congr (by simp) (by simp)⟩
  | endMsg hs =>
    exact .inr ⟨⟨_, rfl⟩, by simp [MessageState.allows, messageState_ne_idle hs], messageState_idle rfl rfl⟩
  | letterFirst hs hp =>
    rw [messageState_first hs hp]
    exact .inr ⟨⟨_, rfl⟩, rfl, messageState_second hs rfl⟩
  | letterSecond hs hp =>
    rw [messageState_second hs hp, letterSecond_eq]
    exact .inr ⟨⟨_, rfl⟩, rfl, messageState_first hs rfl⟩
  | _ => exact .inl ⟨_, _, rfl⟩

/-- Settles O36: the transition of each way a command completes, START's validation from INV2, and the reset state. -/
theorem messageStateMachineTransitions : Obligations.MessageStateMachineTransitions := by
  refine ⟨?reachable, fun i s t r hinv h hr => ?table, fun d s hinv hs => ?start, fun w s t hd h => ?illegal,
    fun s t a rest hmoves h => ?hardReset, fun s => ?recovery⟩
  case reachable =>
    rintro s ⟨-, -, ⟨hclean, -⟩, -⟩
    cases hs : s.armed with
    | false => simp [messageState_idle hs (hclean hs)]
    | true => cases hp : s.phase <;> simp [State.messageState, hs, hp]
  case table =>
    obtain ⟨-, -, hclean, -⟩ := hinv
    obtain ⟨c, d, rfl⟩ | ⟨⟨d, hd⟩, htable⟩ := effect_transition hclean (exec_effect h)
    · obtain rfl : responseWord c.code d = r := by simpa using hr
      exact ⟨fun h0 => absurd h0 (by simpa using c.code_ne_zero), fun _ => messageState_takeFault c d s⟩
    · obtain rfl : responseWord 0 d = r := by simpa [hd] using hr
      exact ⟨fun _ => htable, by simp⟩
  case start =>
    obtain ⟨-, harmedPaired, -, -⟩ := hinv
    obtain ⟨hσ, hτ, -, -⟩ := harmedPaired hs
    exact ⟨_, exec_start_ok d hσ hτ, messageState_first rfl rfl⟩
  case illegal =>
    rw [runWord_of_decode_none hd] at h
    obtain rfl := next_inj h
    exact messageState_takeFault _ _ s
  case hardReset =>
    rw [step_of_hardReset hmoves] at h
    obtain rfl := next_inj h
    exact messageState_idle rfl rfl
  case recovery =>
    have hrst : runWord (encode .rst) s = .next (s.resetBlock.answerOk 0) := runWord_encode rfl s
    rw [runCommands_cons hrst, runCommands_cons ((runWord_encode rfl _).trans
      (exec_start_ok .encipher validTable_identityTable validTable_identityTable))]
    exact ⟨_, rfl, messageState_first rfl rfl⟩

end Sys2Proof.Machine
end

section
/-! PROOFS. Family 42_letter_commands, whole messages (spec/42_letter_commands.md R133 to R140): the state in
which START, one LET per letter and END leave the block, by induction on the pairs of the message. -/

namespace Sys2Proof.Machine

/-! ### Both directions at once -/

/-- What LET answers through a table that holds `σ` (spec/42_letter_commands.md R130). -/
def substitute (d : Direction) (σ : Permutation) (x : Index) : Index :=
  match d with
  | .encipher => σ x
  | .decipher => σ.symm x

/-- The plaintext letter of a position at which the host sends `x` (R130). -/
def plaintextLetter (d : Direction) (σ : Permutation) (x : Index) : Index :=
  match d with
  | .encipher => x
  | .decipher => σ.symm x

/-- What a message of direction `d` is answered (R133, R134). -/
def messageOutput (d : Direction) (σ τ : Permutation) (letters : List Index) : List Index :=
  match d with
  | .encipher => encipher σ τ letters
  | .decipher => decipher σ τ letters

/-- The plaintext of a message of direction `d`, by which the key pair evolves (R135). -/
def messagePlaintext (d : Direction) (σ τ : Permutation) (letters : List Index) : List Index :=
  match d with
  | .encipher => letters
  | .decipher => decipher σ τ letters

theorem messageOutput_nil (d : Direction) (σ τ : Permutation) : messageOutput d σ τ [] = [] := by
  cases d <;> rfl

theorem messageOutput_singleton (d : Direction) (σ τ : Permutation) (x : Index) :
    messageOutput d σ τ [x] = [substitute d σ x] := by
  cases d <;> rfl

theorem messageOutput_pair (d : Direction) (σ τ : Permutation) (x y : Index) (letters : List Index) :
    messageOutput d σ τ (x :: y :: letters) =
      substitute d σ x :: substitute d τ y ::
        messageOutput d (advance σ (plaintextLetter d σ x) (plaintextLetter d τ y))
          (advance τ (plaintextLetter d σ x) (plaintextLetter d τ y)) letters := by
  cases d <;> rfl

theorem evolved_messagePlaintext_nil (d : Direction) (σ τ ρ : Permutation) :
    evolved ρ (messagePlaintext d σ τ []) = ρ := by
  cases d <;> rfl

theorem evolved_messagePlaintext_singleton (d : Direction) (σ τ ρ : Permutation) (x : Index) :
    evolved ρ (messagePlaintext d σ τ [x]) = ρ := by
  cases d <;> rfl

theorem evolved_messagePlaintext_pair (d : Direction) (σ τ ρ : Permutation) (x y : Index) (letters : List Index) :
    evolved ρ (messagePlaintext d σ τ (x :: y :: letters)) =
      evolved (advance ρ (plaintextLetter d σ x) (plaintextLetter d τ y))
        (messagePlaintext d (advance σ (plaintextLetter d σ x) (plaintextLetter d τ y))
          (advance τ (plaintextLetter d σ x) (plaintextLetter d τ y)) letters) := by
  cases d <;> rfl

/-! ### LET on tables that hold a key pair -/

theorem letterOut_first {σ τ : Permutation} {s : State} (hmem : s.mem = keyMemory σ τ) (hp : s.phase = false)
    (x : Index) : letterOut x s = Letter.ofIndex (substitute s.dir σ x) := by
  rw [letterOut_eq rfl hp, hmem]
  cases s.dir <;> exact entry_tableOf _ x

theorem letterOut_second {σ τ : Permutation} {s : State} (hmem : s.mem = keyMemory σ τ) (hp : s.phase = true)
    (x : Index) : letterOut x s = Letter.ofIndex (substitute s.dir τ x) := by
  rw [letterOut_eq rfl hp, hmem]
  cases s.dir <;> exact entry_tableOf _ x

/-- The letter LET holds or evolves with, where it answers what a table that holds `ρ` gives. -/
theorem plainLetter_of_letterOut {ρ : Permutation} {x : Index} {s : State}
    (h : letterOut x s = Letter.ofIndex (substitute s.dir ρ x)) :
    plainLetter x s = Letter.ofIndex (plaintextLetter s.dir ρ x) := by
  cases hd : s.dir with
  | encipher => exact plainLetter_encipher hd x
  | decipher => rw [plainLetter_decipher hd, h, hd]; rfl

/-! ### The run of an open message -/

/-- The word that answers a letter (spec/30_encoding.md R80). -/
def letterResponse (x : Index) : RspWord :=
  responseWord 0 ((Letter.ofIndex x).setWidth 12)

/-- The word that answers END after `n` letters (spec/42_letter_commands.md R131). -/
def parityResponse (n : Nat) : RspWord :=
  responseWord 0 (BitVec.ofNat 12 (n % 2))

theorem parityResponse_add_two (n : Nat) : parityResponse (n + 2) = parityResponse n := by
  rw [parityResponse, Nat.add_mod_right, parityResponse]

/-- The words of the letters of a message and its END: the words of the message after its START. -/
def lettersThenEnd (letters : List Index) : List CmdWord :=
  letters.map (fun x => encode (.letter (Letter.ofIndex x))) ++ [encode .endMsg]

theorem messageWords_eq (d : Direction) (letters : List Index) :
    messageWords d letters = encode (.start d) :: lettersThenEnd letters :=
  rfl

/-- The state after one pair of letters under the key pair `(σ, τ)`, which its plaintext advances. -/
def State.afterPair (σ τ : Permutation) (x y : Index) (s : State) : State :=
  { s with
    mem := keyMemory (advance σ (plaintextLetter s.dir σ x) (plaintextLetter s.dir τ y))
      (advance τ (plaintextLetter s.dir σ x) (plaintextLetter s.dir τ y))
    phase := false
    hold := 0
    responses := s.responses ++ [letterResponse (substitute s.dir σ x), letterResponse (substitute s.dir τ y)] }

/-- The state after the letters and END of a message begun under the key pair `(σ, τ)`. -/
def State.afterMessage (σ τ : Permutation) (letters : List Index) (s : State) : State :=
  { s with
    mem := keyMemory (evolved σ (messagePlaintext s.dir σ τ letters))
      (evolved τ (messagePlaintext s.dir σ τ letters))
    armed := false
    phase := false
    hold := 0
    responses := s.responses ++ (messageOutput s.dir σ τ letters).map letterResponse ++
      [parityResponse letters.length] }

/-- A message that begins with a pair goes on as the message of its other letters under the advanced key pair. -/
theorem State.afterMessage_pair (σ τ : Permutation) (x y : Index) (letters : List Index) (s : State) :
    s.afterMessage σ τ (x :: y :: letters) =
      (s.afterPair σ τ x y).afterMessage (advance σ (plaintextLetter s.dir σ x) (plaintextLetter s.dir τ y))
        (advance τ (plaintextLetter s.dir σ x) (plaintextLetter s.dir τ y)) letters := by
  simp [State.afterMessage, State.afterPair, evolved_messagePlaintext_pair, messageOutput_pair, parityResponse_add_two]

theorem runCommands_end {s : State} (hs : s.armed = true) :
    runCommands [encode .endMsg] s = .next (s.disarm.answerOk (endData s.phase)) :=
  runCommands_cons ((runWord_encode rfl s).trans (exec_end_ok hs))

section OpenMessage

variable {σ τ : Permutation} {s : State} (hmem : s.mem = keyMemory σ τ) (hs : s.armed = true) (hp : s.phase = false)

include hmem hs hp

theorem runCommands_end_without_letters :
    runCommands [encode .endMsg] s = .next (s.afterMessage σ τ []) := by
  rw [runCommands_end hs, hp]
  refine congrArg Host.Outcome.next (State.eq_of_fields ?mem rfl rfl rfl rfl rfl rfl ?responses)
  case mem => simp [State.afterMessage, evolved_messagePlaintext_nil, hmem]
  case responses => simp [State.afterMessage, messageOutput_nil, parityResponse, endData]

theorem runCommands_single_letter_end (x : Index) :
    runCommands [encode (.letter (Letter.ofIndex x)), encode .endMsg] s = .next (s.afterMessage σ τ [x]) := by
  rw [runCommands_cons ((runWord_encode rfl s).trans (exec_letter_first x hs hp)),
    runCommands_end (s := letterFirst x s) hs,
    letterFirst_eq, letterOut_first hmem hp]
  refine congrArg Host.Outcome.next (State.eq_of_fields ?mem rfl rfl rfl rfl rfl rfl ?responses)
  case mem => simp [State.afterMessage, evolved_messagePlaintext_singleton, hmem]
  case responses =>
    simp [State.afterMessage, messageOutput_singleton, letterResponse, Letter.toData, parityResponse, endData]

theorem runCommands_pair (x y : Index) (ws : List CmdWord) :
    runCommands (encode (.letter (Letter.ofIndex x)) :: encode (.letter (Letter.ofIndex y)) :: ws) s =
      runCommands ws (s.afterPair σ τ x y) := by
  have hx := letterOut_first hmem hp x
  have hy : letterOut y (letterFirst x s) = Letter.ofIndex (substitute s.dir τ y) :=
    letterOut_second (s := letterFirst x s) hmem rfl y
  rw [runCommands_letter_pair x y hs hp (plainLetter_of_letterOut hx)
    (plainLetter_of_letterOut (s := letterFirst x s) hy), letterSecond_eq, hy, letterFirst_eq, hx]
  refine congrArg (runCommands ws) (State.eq_of_fields ?mem rfl rfl rfl rfl rfl rfl ?responses)
  case mem => simp [State.afterPair, hmem]
  case responses => simp [State.afterPair, letterResponse, Letter.toData]

/-- By induction on the pairs of the message: the last letter of an odd message is answered but not evolved
with. -/
theorem runCommands_lettersThenEnd (letters : List Index) :
    runCommands (lettersThenEnd letters) s = .next (s.afterMessage σ τ letters) := by
  induction letters using List.twoStepInduction generalizing σ τ s with
  | nil => exact runCommands_end_without_letters hmem hs hp
  | singleton x => exact runCommands_single_letter_end hmem hs hp x
  | cons_cons x y letters ih _ =>
    have hs' : (s.afterPair σ τ x y).armed = true := by rw [State.afterPair, hs]
    calc runCommands (lettersThenEnd (x :: y :: letters)) s
        = runCommands (lettersThenEnd letters) (s.afterPair σ τ x y) := runCommands_pair hmem hs hp x y _
      _ = .next ((s.afterPair σ τ x y).afterMessage _ _ letters) := ih (by rw [State.afterPair]) hs' (by rw [State.afterPair])
      _ = .next (s.afterMessage σ τ (x :: y :: letters)) := by rw [State.afterMessage_pair]

end OpenMessage

/-! ### The run of a whole message -/

/-- START on forward tables that hold a key pair completes the four tables of that key pair. -/
theorem writeInverses_eq_keyMemory {σ τ : Permutation} {m : Memory} (hσ : m.sigma = tableOf σ)
    (hτ : m.tau = tableOf τ) : m.writeInverses = keyMemory σ τ := by
  rw [Memory.writeInverses, hσ, hτ, invertTable_tableOf, invertTable_tableOf, keyMemory]

/-- A message under a valid key pair, in either direction (spec/42_letter_commands.md R136). -/
theorem runCommands_messageWords {σ τ : Permutation} {s : State} (hσ : s.mem.sigma = tableOf σ)
    (hτ : s.mem.tau = tableOf τ) (d : Direction) (letters : List Index) :
    ∃ t, runCommands (messageWords d letters) s = .next t ∧
      t.responses = s.responses ++ [0x0000] ++ (messageOutput d σ τ letters).map letterResponse ++
        [parityResponse letters.length] ∧
      t.mem = keyMemory (evolved σ (messagePlaintext d σ τ letters)) (evolved τ (messagePlaintext d σ τ letters)) ∧
      t.armed = false := by
  have hstart := exec_start_ok d (s := s) (hσ ▸ validTable_tableOf σ) (hτ ▸ validTable_tableOf τ)
  rw [writeInverses_eq_keyMemory hσ hτ] at hstart
  rw [messageWords_eq, runCommands_cons ((runWord_encode rfl s).trans hstart),
    runCommands_lettersThenEnd (σ := σ) (τ := τ) (by simp) rfl rfl]
  refine ⟨_, rfl, ?_, rfl, rfl⟩
  simp [State.afterMessage, responseWord_zero]

/-- Settles O47: the two directions of one run. -/
theorem commandSequencesComputeTheCipher : Obligations.CommandSequencesComputeTheCipher := by
  intro σ τ s hσ hτ
  refine ⟨fun m => ?encipher, fun c => ?decipher⟩
  case encipher =>
    obtain ⟨t, hrun, hresponses, hmem, harmed⟩ := runCommands_messageWords hσ hτ .encipher m
    exact ⟨t, hrun, hresponses, by rw [hmem]; exact ⟨rfl, rfl, rfl, rfl, harmed⟩⟩
  case decipher =>
    obtain ⟨t, hrun, hresponses, hmem, harmed⟩ := runCommands_messageWords hσ hτ .decipher c
    exact ⟨t, hrun, hresponses, by rw [hmem]; exact ⟨rfl, rfl, rfl, rfl, harmed⟩⟩

/-- Settles O48: both runs evolve the key pair by the same plaintext, which decipher recovers. -/
theorem blockDeciphersWhatItEnciphered : Obligations.BlockDeciphersWhatItEnciphered := by
  intro σ τ s s' hσ hτ hσ' hτ' m
  obtain ⟨t, hrun, hresponses, hmem, -⟩ := runCommands_messageWords hσ hτ .encipher m
  obtain ⟨t', hrun', hresponses', hmem', -⟩ := runCommands_messageWords hσ' hτ' .decipher (encipher σ τ m)
  rw [messageOutput, decipher_encipher, length_encipher] at hresponses'
  rw [messagePlaintext, decipher_encipher] at hmem'
  exact ⟨encipher σ τ m, t, t', hrun, hresponses, hrun', hresponses', hmem'.trans hmem.symm⟩

/-! ### What the responses depend on -/

/-- In a block that is not armed each letter of a message and its END take SequenceError. -/
theorem runCommands_lettersThenEnd_idle (letters : List Index) {s : State} (hs : s.armed = false) :
    ∃ t, runCommands (lettersThenEnd letters) s = .next t ∧
      t.responses = s.responses ++
        List.replicate (letters.length + 1) (responseWord ErrorCode.sequenceError.code 0) := by
  induction letters generalizing s with
  | nil => exact ⟨_, runCommands_cons ((runWord_encode rfl s).trans (exec_end_idle hs)), rfl⟩
  | cons x letters ih =>
    obtain ⟨t, hrun, hresponses⟩ := ih (s := s.takeFault .sequenceError 0) rfl
    have hx := (runWord_encode rfl s).trans (exec_letter_idle (Letter.ofIndex x) hs)
    refine ⟨t, (runCommands_cons hx).trans hrun, ?_⟩
    rw [hresponses, State.takeFault_responses, List.append_assoc]
    rfl

/-- The responses of a message, as a function of the two forward tables, the direction and the letters: under an
invalid key pair START and every later word fault, under a valid one they are the cipher's. -/
theorem exists_messageResponses (T U : Table) (d : Direction) (letters : List Index) :
    ∃ rs : List RspWord, ∀ s : State, s.mem.sigma = T → s.mem.tau = U →
      ∃ t, runCommands (messageWords d letters) s = .next t ∧ t.responses = s.responses ++ rs := by
  by_cases hvalid : validTable T = true ∧ validTable U = true
  · obtain ⟨σ, hT⟩ := validTable_iff_exists_tableOf.mp hvalid.1
    obtain ⟨τ, hU⟩ := validTable_iff_exists_tableOf.mp hvalid.2
    refine ⟨0x0000 :: (messageOutput d σ τ letters).map letterResponse ++ [parityResponse letters.length],
      fun s hσ hτ => ?_⟩
    obtain ⟨t, hrun, hresponses, -, -⟩ := runCommands_messageWords (hσ.trans hT) (hτ.trans hU) d letters
    exact ⟨t, hrun, by simp [hresponses]⟩
  · refine ⟨responseWord ErrorCode.invalidPermutation.code (startFaultData (!validTable T) (!validTable U)) ::
        List.replicate (letters.length + 1) (responseWord ErrorCode.sequenceError.code 0),
      fun s hσ hτ => ?_⟩
    subst hσ hτ
    have hbad : validTable s.mem.sigma = false ∨ validTable s.mem.tau = false := by
      simpa [Decidable.or_iff_not_imp_left] using hvalid
    obtain ⟨t, hrun, hresponses⟩ := runCommands_lettersThenEnd_idle letters
      (s := s.takeFault .invalidPermutation (startFaultData (!validTable s.mem.sigma) (!validTable s.mem.tau))) rfl
    refine ⟨t, (runCommands_cons ((runWord_encode rfl s).trans (exec_start_invalid d hbad))).trans hrun, ?_⟩
    rw [hresponses, State.takeFault_responses, List.append_assoc]
    rfl

/-- Settles O49: both states answer the responses that their common forward tables determine. -/
theorem outputsDependOnlyOnKeyDirectionAndLetters : Obligations.OutputsDependOnlyOnKeyDirectionAndLetters := by
  intro s s' hσ hτ d letters t ht
  obtain ⟨rs, hrs⟩ := exists_messageResponses s.mem.sigma s.mem.tau d letters
  obtain ⟨u, hu, hresponses⟩ := hrs s rfl rfl
  obtain ⟨t', ht', hresponses'⟩ := hrs s' hσ.symm hτ.symm
  obtain rfl : t = u := next_inj (hu.symm.trans ht)
  exact ⟨t', rs, ht', hresponses, hresponses'⟩

end Sys2Proof.Machine
end

section
/-! PROOFS. Family 43_system_commands (spec/43_system_commands.md R160 to R162): the one word of NOP and of RST,
what the three commands do, and the bits of the control registers (spec/10_state.md R32, R33). -/

namespace Sys2Proof

/-- Exactly one word decodes to a well-formed command, its encoding (spec/30_encoding.md R70, R79). -/
theorem decode_eq_some_iff_eq_encode {i : Instr} (h : i.wf = true) {w : CmdWord} :
    decode w = some i ↔ w = encode i := by
  constructor
  · intro hd
    obtain ⟨-, hw⟩ := encodeOfDecodeIsTheWord w i hd
    exact hw.symm
  · rintro rfl
    exact decode_encode h

theorem encode_nop : encode .nop = 0x0000 := by decide

theorem encode_rst : encode .rst = 0x1000 := by decide

theorem toNat_encode_rdc (c : BitVec 5) : (encode (.rdc c)).toNat = 0x2000 + c.toNat :=
  toNat_commandWord 2 0 0 c

theorem Direction.bit_eq_decide (d : Direction) : d.bit = decide (d = .decipher) := by
  cases d <;> rfl

end Sys2Proof

namespace Sys2Proof.Machine

/-! ### NOP and RST -/

/-- A success with `DATA = 0` writes the response 0x0000 and nothing else. -/
theorem answerOk_zero (s : State) : s.answerOk 0 = { s with responses := s.responses ++ [0x0000] } := by
  rw [State.answerOk, show responseWord 0 0 = 0x0000 from responseWord_zero]
  rfl

/-- Settles O20: decoder and encoder are inverse at NOP, which only answers. -/
theorem nopChangesNothing : Obligations.NopChangesNothing := by
  refine ⟨fun w => ?word, fun s => ?effect⟩
  case word => rw [decode_eq_some_iff_eq_encode rfl, encode_nop]
  case effect => rw [exec, execNop, answerOk_zero]

/-- Settles O21: decoder and encoder are inverse at RST, which answers after `resetBlock`. -/
theorem rstLeavesTheResetState : Obligations.RstLeavesTheResetState := by
  refine ⟨fun w => ?word, fun s => ?effect⟩
  case word => rw [decode_eq_some_iff_eq_encode rfl, encode_rst]
  case effect =>
    rw [exec, execRst, answerOk_zero]
    rfl

/-! ### RDC -/

/-- RDC of a register that exists answers it and changes nothing else. -/
theorem exec_rdc_ok {c : BitVec 5} {d : Data} {s : State} (h : controlRegister? c s = some d) :
    exec (.rdc c) s = .next { s with responses := s.responses ++ [responseWord 0 d] } := by
  simp only [exec, execRdc, h]
  rfl

/-- Which field each bit of `STATUS` is (spec/10_state.md R32). -/
theorem getLsbD_statusRegister (s : State) (i : Nat) :
    (statusRegister s).getLsbD i =
      if i = 0 then s.armed
      else if i = 1 then s.dir.bit
      else if i = 2 then s.phase
      else if i = 3 then false
      else s.fault.getLsbD (i - 4) := by
  simp only [statusRegister, BitVec.getLsbD_append, BitVec.getLsbD_ofBool]
  match i with
  | 0 | 1 | 2 | 3 => simp
  | j + 4 =>
    by_cases hj : j < 4
    · simp [hj]
    · simp [hj, BitVec.getLsbD_of_ge s.fault j (Nat.not_lt.mp hj)]

/-- `STATUS[11:8]` is 0 (spec/10_state.md R32). -/
theorem statusRegister_extract_reserved (s : State) : (statusRegister s).extractLsb' 8 4 = 0 := by
  apply BitVec.eq_of_getLsbD_eq
  intro i hi
  rw [BitVec.getLsbD_extractLsb', getLsbD_statusRegister]
  interval_cases i <;> simp

/-- The two parts of `HOLDR` (spec/10_state.md R33). -/
theorem holdRegister_extract (s : State) :
    (holdRegister s).extractLsb' 0 5 = s.hold ∧ (holdRegister s).extractLsb' 5 7 = 0 := by
  constructor
  · rw [holdRegister, Letter.toData, BitVec.extractLsb'_setWidth_of_le (by decide), BitVec.extractLsb'_eq_self]
  · ext i hi
    simp [holdRegister, Letter.toData]

/-- Settles O22: each register is answered as `controlRegister?` gives it, and its bits are its layout. -/
theorem rdcAnswersTheControlRegister : Obligations.RdcAnswersTheControlRegister := by
  obtain ⟨-, hstatus, hhold⟩ := resetBlock_reads_reset State.reset
  refine ⟨toNat_encode_rdc, hstatus, hhold, fun _ => exec_rdc_ok rfl, fun _ => exec_rdc_ok rfl,
    fun s => ?id, fun _ s hc => exec_rdc_illegal s hc, fun s => ?statusBits, holdRegister_extract⟩
  case id =>
    have hid : responseWord 0 idRegister = 0x01BA := by decide
    rw [← hid]
    exact exec_rdc_ok rfl
  case statusBits =>
    have hdir : (statusRegister s).getLsbD 1 = decide (s.dir = .decipher) :=
      (getLsbD_statusRegister s 1).trans (Direction.bit_eq_decide s.dir)
    exact ⟨getLsbD_statusRegister s 0, hdir, getLsbD_statusRegister s 2, getLsbD_statusRegister s 3,
      statusRegister_extract_fault s, statusRegister_extract_reserved s⟩

end Sys2Proof.Machine
end

section
/-! PROOFS. Family 60_exceptions (spec/60_exceptions.md): what a fault writes (R176) and that a faulting command
does nothing else (R177), which fault is reported (R178), letters under a valid key only (R171), and instances
that share nothing (R184). -/

namespace Sys2Proof.Machine

/-! ### The fault entry -/

/-- Settles O16: the fault entry is its three updates in a row. -/
theorem faultEntryWritesExactlyItsFields : Obligations.FaultEntryWritesExactlyItsFields := by
  intro c d s _
  exact State.eq_of_fields rfl rfl rfl rfl rfl rfl rfl rfl

/-- No response is both a fault's and a success's: their `STAT` differs (spec/60_exceptions.md R170). -/
theorem ErrorCode.responseWord_ne_ok (c : ErrorCode) (d e : Data) : responseWord c.code d ≠ responseWord 0 e := by
  intro h
  have hstat := congrArg statOf h
  rw [statOf_responseWord, statOf_responseWord] at hstat
  exact c.code_ne_zero hstat

/-- Settles O17: a word that completes without a fault answers `STAT = 0`. -/
theorem faultsArePrecise : Obligations.FaultsArePrecise := by
  intro w s t r h hr hstat
  obtain ⟨c, d, hc, rfl⟩ | ⟨⟨d, hd⟩, -⟩ := runWord_fault_or_success h
  · obtain rfl : responseWord c.code d = r := by simpa using hr
    exact ⟨c, d, hc, rfl, rfl⟩
  · obtain rfl : responseWord 0 d = r := by simpa [hd] using hr
    exact absurd (statOf_responseWord 0 d) hstat

/-! ### Priority -/

/-- Settles O19: each command's checks in their order, START's with the two bits of its `DATA`. -/
theorem faultPriorityIsDecodeThenStateThenOperand : Obligations.FaultPriorityIsDecodeThenStateThenOperand := by
  refine ⟨fun w s hd => runWord_of_decode_none hd s,
    fun c s hc => exec_rdc_illegal s hc,
    fun x s hs => exec_letter_idle x hs,
    fun s hs => exec_end_idle hs,
    fun a b s h => exec_comp_sequence a b h,
    fun k i v s hk hs => exec_ldk_armed hk hs i v,
    fun k i v s hk hs hrange => exec_ldk_range hk hs hrange,
    fun k i s hi => exec_rdt_range k s hi,
    fun x s hs hx => exec_letter_range hs hx,
    fun a b s hs hp hrange => exec_comp_range hs hp hrange,
    fun d s hbad => ?start⟩
  case start =>
    obtain ⟨hsigma, htau, -⟩ := startFaultData_bits (!validTable s.mem.sigma) (!validTable s.mem.tau)
    exact ⟨_, exec_start_invalid d hbad, hsigma, htau⟩

/-! ### Letters and keys -/

/-- A LET answered with `STAT = 0` found the block armed: the state check comes first (spec/60_exceptions.md R174). -/
theorem armed_of_letter_answered {x : Letter} {s t : State} {d : Data} (h : exec (.letter x) s = .next t)
    (hd : t.responses = s.responses ++ [responseWord 0 d]) : s.armed = true := by
  by_contra hs
  rw [exec_letter_idle x (Bool.eq_false_iff.mpr hs)] at h
  obtain rfl := next_inj h
  have hword : responseWord ErrorCode.sequenceError.code 0 = responseWord 0 d := by simpa using hd
  exact ErrorCode.responseWord_ne_ok _ _ _ hword

/-- Settles O35: an answered LET finds the block armed, and INV2 makes the key of an armed block valid. -/
theorem noLetterIsAnsweredUnderAnInvalidKey : Obligations.NoLetterIsAnsweredUnderAnInvalidKey := by
  intro moves k s t x d hs ht hd
  have hstart : State.Inv { State.reset with hostMoves := moves } := inv_reset
  obtain ⟨-, hvalid, -, -⟩ := runSteps_keeps_inv k hstart hs
  obtain ⟨hσ, hτ, -, -⟩ := hvalid (armed_of_letter_answered ht hd)
  exact ⟨hσ, hτ⟩

/-! ### Instances -/

/-- A step of one block leaves every other block as it is (spec/60_exceptions.md R184). -/
theorem getElem?_stepInstance_of_ne {j k : Nat} (h : j ≠ k) (blocks : Instances) :
    (stepInstance j blocks)[k]? = blocks[k]? :=
  List.getElem?_modify_ne _ blocks h

/-- A step of a block looks at that block alone. -/
theorem getElem?_stepInstance_congr {k : Nat} {blocks blocks' : Instances} (h : blocks[k]? = blocks'[k]?) :
    (stepInstance k blocks)[k]? = (stepInstance k blocks')[k]? := by
  rw [stepInstance, stepInstance, List.getElem?_modify_eq, List.getElem?_modify_eq, h]

/-- Settles O60: at each position at most one of the two steps acts, on the block it would find there anyway. -/
theorem instancesAreIndependent : Obligations.InstancesAreIndependent := by
  intro j k blocks hjk
  refine ⟨getElem?_stepInstance_of_ne hjk blocks, List.ext_getElem? fun i => ?_⟩
  by_cases hj : j = i
  · subst hj
    rw [getElem?_stepInstance_of_ne hjk.symm]
    exact getElem?_stepInstance_congr (getElem?_stepInstance_of_ne hjk.symm blocks)
  · by_cases hk : k = i
    · subst hk
      rw [getElem?_stepInstance_of_ne hj]
      exact getElem?_stepInstance_congr (getElem?_stepInstance_of_ne hj blocks).symm
    · simp only [getElem?_stepInstance_of_ne hj, getElem?_stepInstance_of_ne hk]

end Sys2Proof.Machine
end

section
/-! PROOFS. Family 70_reset_and_hazards (spec/70_reset_and_hazards.md): runs of command words (R209), and the
handshake at the ports, edge by edge (R201 to R203, R207, R208). -/

namespace Sys2Proof.Machine

/-! ### Runs of command words -/

/-- Settles O6, by induction on the list: under INV1 each word completes, with one response, and the next word
starts from the invariants again. -/
theorem everyRunOfCommandWordsCompletes : Obligations.EveryRunOfCommandWordsCompletes := by
  intro ws
  induction ws with
  | nil => exact fun s hinv => ⟨s, [], rfl, hinv, by simp, rfl⟩
  | cons w ws ih =>
    intro s hinv
    obtain ⟨u, hu⟩ := runWord_completes w hinv.1
    obtain ⟨⟨r, hr⟩, -⟩ := runWord_responses hu
    obtain ⟨t, rs, ht, htinv, hrs, hlen⟩ := ih u (runWord_keeps_inv hinv hu)
    exact ⟨t, r :: rs, (runCommands_cons hu).trans ht, htinv, by simp [hrs, hr], by simp [hlen]⟩

/-! ### The outputs, by the state of the handshake -/

theorem Ports.cmdReady_eq_false_iff {p : Ports} : p.cmdReady = false ↔ p.link ≠ .ready := by
  rw [← Bool.not_eq_true, Ports.cmdReady_iff]

theorem Ports.rspData?_eq_some_iff {p : Ports} {r : RspWord} : p.rspData? = some r ↔ p.link = .offering r := by
  unfold Ports.rspData?
  cases p.link <;> simp

theorem Ports.rspValid_iff {p : Ports} : p.rspValid = true ↔ ∃ r, p.link = .offering r := by
  unfold Ports.rspValid
  cases p.link <;> simp

theorem Ports.rspValid_eq_false_iff {p : Ports} : p.rspValid = false ↔ ∀ r, p.link ≠ .offering r := by
  rw [← Bool.not_eq_true, Ports.rspValid_iff, not_exists]

/-! ### The remaining edges, acceptance and completion -/

theorem edge_hardReset {pins : Pins} (hrst : pins.rst = true) (p : Ports) :
    edge pins p = .next p.hardReset := by
  simp [edge, hrst]

theorem edge_resting {p : Ports} {pins : Pins} {n : Nat} (hrst : pins.rst = false)
    (hlink : p.link = .resting n) : edge pins p = .next { p with link := restingFor n } := by
  simp [edge, hrst, hlink]

theorem edge_ready_wait {p : Ports} {pins : Pins} (hrst : pins.rst = false) (hlink : p.link = .ready)
    (hvalid : pins.cmdValid = false) : edge pins p = .next p := by
  simp [edge, hrst, hlink, hvalid]

theorem Ports.accept_of_latency_zero {p : Ports} (h : Config.latency p.uses = 0) (w : CmdWord) :
    p.accept w = Ports.complete w { p with uses := p.uses + 1 } := by
  simp [Ports.accept, h]

theorem Ports.accept_of_latency_succ {p : Ports} {n : Nat} (h : Config.latency p.uses = n + 1) (w : CmdWord) :
    p.accept w = .next { p with link := .busy w n, uses := p.uses + 1 } := by
  simp [Ports.accept, h]

/-- Where a command completes, its response is offered. -/
theorem Ports.complete_offers {w : CmdWord} {p q : Ports} (h : p.complete w = .next q) :
    ∃ r, q.link = .offering r := by
  unfold Ports.complete at h
  split at h
  · cases h
    exact ⟨_, rfl⟩
  · cases h
  · cases h

/-- Under the invariants a command in flight completes, and its response, not yet delivered, is no part of what
the invariants look at. -/
theorem Ports.complete_keeps_inv (w : CmdWord) {p : Ports} (hinv : p.block.Inv) :
    ∃ q r, p.complete w = .next q ∧ q.link = .offering r ∧ q.uses = p.uses ∧ q.block.Inv := by
  obtain ⟨t, ht⟩ := runWord_completes w hinv.1
  exact ⟨_, _, Ports.complete_of_runWord ht, rfl, rfl, inv_congr (runWord_keeps_inv hinv ht) rfl rfl rfl rfl rfl⟩

theorem inv_respond {s : State} (h : s.Inv) (r : RspWord) : (s.respond r).Inv :=
  inv_congr h rfl rfl rfl rfl rfl

/-! ### Responses at the ports (R201, R202, R207) -/

/-- Settles O53: the two edges of an offered response. -/
theorem offeredResponseIsHeldUntilTaken : Obligations.OfferedResponseIsHeldUntilTaken := by
  intro p r pins hdata hrst
  have hlink := Ports.rspData?_eq_some_iff.mp hdata
  exact ⟨edge_offering_wait hrst hlink, fun hready =>
    ⟨p.deliver r, edge_offering_take hrst hlink hready, Ports.deliver_rspValid r p, rfl⟩⟩

/-- An acceptance completes the command at once, or it leaves the block as it is. -/
theorem Ports.accept_offers_or_keeps_block {w : CmdWord} {p q : Ports} (h : p.accept w = .next q) :
    (∃ r, q.link = .offering r) ∨ q.block = p.block := by
  cases hlat : Config.latency p.uses with
  | zero =>
    rw [Ports.accept_of_latency_zero hlat] at h
    exact .inl (Ports.complete_offers h)
  | succ n =>
    rw [Ports.accept_of_latency_succ hlat] at h
    cases h
    exact .inr rfl

/-- Settles O57, by the state of the handshake at the edge. -/
theorem stateChangesOnlyWhileACommandIsInFlight : Obligations.StateChangesOnlyWhileACommandIsInFlight := by
  intro p q pins hrst h
  simp only [Ports.rspData?_eq_some_iff, Ports.rspValid_eq_false_iff, Ports.cmdReady_iff]
  match hlink : p.link with
  | .resting n =>
    rw [edge_resting hrst hlink] at h
    cases h
    exact .inr (.inl rfl)
  | .ready =>
    cases hvalid : pins.cmdValid with
    | false =>
      rw [edge_ready_wait hrst hlink hvalid] at h
      cases h
      exact .inr (.inl rfl)
    | true =>
      rw [edge_accept hrst hlink hvalid] at h
      obtain ⟨r, hr⟩ | hblock := Ports.accept_offers_or_keeps_block h
      · exact .inl ⟨r, hr, nofun, .inl ⟨rfl, rfl⟩⟩
      · exact .inr (.inl hblock)
  | .busy w 0 =>
    rw [edge_busy_last hrst hlink] at h
    obtain ⟨r, hr⟩ := Ports.complete_offers h
    exact .inl ⟨r, hr, nofun, .inr ⟨w, rfl⟩⟩
  | .busy w (n + 1) =>
    rw [edge_busy_wait hrst hlink] at h
    cases h
    exact .inr (.inl rfl)
  | .offering r =>
    cases hready : pins.rspReady with
    | false =>
      rw [edge_offering_wait hrst hlink hready] at h
      cases h
      exact .inr (.inl rfl)
    | true =>
      rw [edge_offering_take hrst hlink hready] at h
      cases h
      exact .inr (.inr ⟨r, rfl, rfl, rfl⟩)

/-- A command in flight counts the edges down and does nothing else while it has more to wait. -/
theorem runEdges_busy_wait {es : List Pins} {p : Ports} {w : CmdWord} {n : Nat}
    (hlink : p.link = .busy w (n + es.length)) (hrst : ∀ e ∈ es, e.rst = false) :
    runEdges es p = .next { p with link := .busy w n } := by
  induction es generalizing p with
  | nil =>
    have hlink : p.link = .busy w n := hlink
    simp [runEdges, ← hlink]
  | cons e es ih =>
    rw [runEdges_cons (edge_busy_wait (hrst e (by simp)) hlink)]
    exact ih rfl fun e' he' => hrst e' (by simp [he'])

/-- Settles O58: the command completes at the last edge of its latency, and it is still in flight before. -/
theorem acceptedCommandIsAnsweredAfterItsLatency : Obligations.AcceptedCommandIsAnsweredAfterItsLatency := by
  intro p first later hinv hready hfirst hvalid hlater hlen
  have hlink := Ports.cmdReady_iff.mp hready
  refine ⟨?offered, ?before⟩
  case offered =>
    obtain ⟨t, ht⟩ := runWord_completes first.cmdData hinv.1
    obtain ⟨q, hq, hoffer, -⟩ := runEdges_offers hlink hfirst hvalid hlater hlen ht
    exact ⟨q, hq, Ports.rspValid_iff.mpr ⟨_, hoffer⟩⟩
  case before =>
    intro k hk
    obtain ⟨n, hn⟩ : ∃ n, Config.latency p.uses = n + k + 1 := ⟨later.length - k - 1, by omega⟩
    have haccept := (edge_accept hfirst hlink hvalid).trans (Ports.accept_of_latency_succ hn first.cmdData)
    have htake : (later.take k).length = k := by simp [hk.le]
    exact ⟨_, (runEdges_cons haccept _).trans <|
      runEdges_busy_wait (n := n) (by rw [htake]) fun e he => hlater e (List.mem_of_mem_take he), rfl⟩

/-! ### Hard reset (R203) -/

/-- The block is ready or on its way there, with no command in flight and no response offered. -/
def Ports.NothingInFlight (p : Ports) : Prop :=
  p.link = .ready ∨ ∃ n, p.link = .resting n

theorem Ports.NothingInFlight.rspValid {p : Ports} (h : p.NothingInFlight) : p.rspValid = false := by
  rw [Ports.rspValid_eq_false_iff]
  obtain hlink | ⟨n, hlink⟩ := h <;> simp [hlink]

theorem Ports.nothingInFlight_of_restingFor {p : Ports} (n : Nat) (h : p.link = restingFor n) : p.NothingInFlight := by
  cases n with
  | zero => exact .inl h
  | succ n => exact .inr ⟨n, h⟩

theorem State.resetBlock_resetBlock (s : State) : s.resetBlock.resetBlock = s.resetBlock := rfl

/-- Without an offer nothing comes in flight, and a block in the reset state stays there, also at a further
hard reset. -/
theorem edge_keeps_reset {p : Ports} {pins : Pins} (hidle : p.NothingInFlight)
    (hreset : p.block.resetBlock = p.block) (hvalid : pins.cmdValid = false) :
    ∃ q, edge pins p = .next q ∧ q.NothingInFlight ∧ q.block = p.block := by
  cases hrst : pins.rst with
  | true => exact ⟨_, edge_hardReset hrst p, .inr ⟨_, rfl⟩, hreset⟩
  | false =>
    obtain hlink | ⟨n, hlink⟩ := hidle
    · exact ⟨p, edge_ready_wait hrst hlink hvalid, .inl hlink, rfl⟩
    · exact ⟨_, edge_resting hrst hlink, Ports.nothingInFlight_of_restingFor n rfl, rfl⟩

theorem runEdges_keeps_reset {es : List Pins} {p : Ports} (hidle : p.NothingInFlight)
    (hreset : p.block.resetBlock = p.block) (hvalid : ∀ e ∈ es, e.cmdValid = false) :
    ∃ q, runEdges es p = .next q ∧ q.NothingInFlight ∧ q.block = p.block := by
  induction es generalizing p with
  | nil => exact ⟨p, rfl, hidle, rfl⟩
  | cons e es ih =>
    obtain ⟨u, hu, huidle, hublock⟩ := edge_keeps_reset hidle hreset (hvalid e (by simp))
    obtain ⟨q, hq, hqidle, hqblock⟩ := ih huidle (hublock ▸ hreset) fun e' he' => hvalid e' (by simp [he'])
    exact ⟨q, (runEdges_cons hu es).trans hq, hqidle, hqblock.trans hublock⟩

/-- Settles O54: the edge itself leaves `Ports.hardReset`, with nothing in flight, and the later edges keep that. -/
theorem hardResetAtAnyEdgeAbandonsTheCommand : Obligations.HardResetAtAnyEdgeAbandonsTheCommand := by
  intro p pins hrst
  have hedge := edge_hardReset hrst p
  refine ⟨⟨p.hardReset, _, hedge, rfl, rfl, rfl, rfl⟩, fun later hlater => ?_⟩
  obtain ⟨q, hq, hidle, hblock⟩ :=
    runEdges_keeps_reset (p := p.hardReset) (.inr ⟨_, rfl⟩) (State.resetBlock_resetBlock p.block) hlater
  exact ⟨q, (runEdges_cons hedge later).trans hq, hidle.rspValid, hblock⟩

/-! ### The way back to `cmd_ready` (R203, R207) -/

/-- How many edges with `rst = 0` and `rsp_ready = 1` the block is away from `cmd_ready = 1`, with the wait after
the delivery that is still to be drawn (log 7). -/
def Ports.edgesToReady (p : Ports) : Nat :=
  match p.link with
  | .ready => 0
  | .resting n => n + 1
  | .offering _ => Config.readyDelay p.uses + 1
  | .busy _ n => n + 1 + (Config.readyDelay p.uses + 1)

theorem Ports.edgesToReady_resting {p : Ports} {n : Nat} (h : p.link = .resting n) : p.edgesToReady = n + 1 := by
  simp [Ports.edgesToReady, h]

theorem Ports.edgesToReady_restingFor {p : Ports} (n : Nat) (h : p.link = restingFor n) : p.edgesToReady = n := by
  cases n <;> simp [Ports.edgesToReady, h, restingFor]

theorem Ports.edgesToReady_offering {p : Ports} {r : RspWord} (h : p.link = .offering r) :
    p.edgesToReady = Config.readyDelay p.uses + 1 := by
  simp [Ports.edgesToReady, h]

theorem Ports.edgesToReady_busy {p : Ports} {w : CmdWord} {n : Nat} (h : p.link = .busy w n) :
    p.edgesToReady = n + 1 + (Config.readyDelay p.uses + 1) := by
  simp [Ports.edgesToReady, h]

theorem Ports.edgesToReady_eq_zero_iff {p : Ports} : p.edgesToReady = 0 ↔ p.cmdReady = true := by
  rw [Ports.cmdReady_iff]
  unfold Ports.edgesToReady
  cases p.link <;> simp

/-- If the host takes responses, every edge brings a block that meets the invariants one edge nearer to
`cmd_ready = 1`, whatever the host offers meanwhile. -/
theorem edge_nearer_to_ready {p : Ports} {pins : Pins} {n : Nat} (hinv : p.block.Inv)
    (hn : p.edgesToReady = n + 1) (hrst : pins.rst = false) (hready : pins.rspReady = true) :
    ∃ q, edge pins p = .next q ∧ q.block.Inv ∧ q.edgesToReady = n := by
  match hlink : p.link with
  | .ready => simp [Ports.edgesToReady, hlink] at hn
  | .resting m =>
    rw [Ports.edgesToReady_resting hlink] at hn
    obtain rfl : m = n := by omega
    exact ⟨_, edge_resting hrst hlink, hinv, Ports.edgesToReady_restingFor m rfl⟩
  | .offering r =>
    rw [Ports.edgesToReady_offering hlink] at hn
    refine ⟨_, edge_offering_take hrst hlink hready, inv_respond hinv r, ?_⟩
    rw [Ports.edgesToReady_restingFor _ rfl]
    omega
  | .busy w 0 =>
    rw [Ports.edgesToReady_busy hlink] at hn
    obtain ⟨q, r, hq, hoffer, huses, hqinv⟩ := Ports.complete_keeps_inv w hinv
    refine ⟨q, (edge_busy_last hrst hlink).trans hq, hqinv, ?_⟩
    rw [Ports.edgesToReady_offering hoffer, huses]
    omega
  | .busy w (m + 1) =>
    rw [Ports.edgesToReady_busy hlink] at hn
    refine ⟨_, edge_busy_wait hrst hlink, hinv, ?_⟩
    rw [Ports.edgesToReady_busy (w := w) (n := m) rfl]
    dsimp only
    omega

/-- Settles O56: `Ports.edgesToReady` is the number of edges. -/
theorem quietHostSeesReadyAgain : Obligations.QuietHostSeesReadyAgain := by
  intro p hinv
  refine ⟨p.edgesToReady, fun es hlen hpins => ?_⟩
  induction es generalizing p with
  | nil => exact ⟨p, rfl, Ports.edgesToReady_eq_zero_iff.mp hlen.symm⟩
  | cons e es ih =>
    obtain ⟨hrst, -, hready⟩ := hpins e (by simp)
    obtain ⟨u, hu, huinv, hcount⟩ := edge_nearer_to_ready hinv hlen.symm hrst hready
    obtain ⟨q, hq, hqready⟩ := ih u huinv hcount.symm fun e' he' => hpins e' (by simp [he'])
    exact ⟨q, (runEdges_cons hu es).trans hq, hqready⟩

/-! ### An offer that the host keeps (R201, R208) -/

/-- An offer not accepted at an edge stands unchanged at the next, and the host's duty goes on from there. -/
theorem hostKeepsOffers_next {e e' : Pins} {es : List Pins} {p q : Ports}
    (hkeeps : hostKeepsOffers (e :: e' :: es) p) (hnot : p.cmdReady = false) (hvalid : e.cmdValid = true)
    (hedge : edge e p = .next q) :
    e'.cmdValid = true ∧ e'.cmdData = e.cmdData ∧ hostKeepsOffers (e' :: es) q := by
  obtain ⟨hstands, hrest⟩ := hkeeps
  rw [hedge] at hrest
  obtain ⟨hvalid', hdata⟩ : e'.cmdValid = true ∧ e'.cmdData = e.cmdData := by
    simpa [Ports.offerStands, hnot, hvalid] using hstands
  exact ⟨hvalid', hdata, hrest⟩

/-- The first clause of O55, by induction on the edges at which `cmd_ready` stays 0. -/
theorem keptOffer_accepted_at_first_ready {p q : Ports} {first last : Pins} {mid : List Pins}
    (hnot : p.cmdReady = false) (hkeeps : hostKeepsOffers (first :: mid ++ [last]) p)
    (hvalid : first.cmdValid = true) (hrst : ∀ e ∈ first :: mid ++ [last], e.rst = false)
    (hwait : ∀ (k : Nat) (r : Ports), k < mid.length →
      runEdges (first :: mid.take k) p = .next r → r.cmdReady = false)
    (hrun : runEdges (first :: mid) p = .next q) (hready : q.cmdReady = true) :
    runEdges (first :: mid ++ [last]) p = q.accept first.cmdData := by
  induction mid generalizing p first with
  | nil =>
    rw [runEdges_append hrun, runEdges_singleton]
    rw [runEdges_singleton] at hrun
    obtain ⟨hvalid', hdata, -⟩ := hostKeepsOffers_next hkeeps hnot hvalid hrun
    rw [edge_accept (hrst last (by simp)) (Ports.cmdReady_iff.mp hready) hvalid', hdata]
  | cons e mid ih =>
    cases hedge : edge first p with
    | fault r => simp [runEdges, hedge] at hrun
    | refused r => simp [runEdges, hedge] at hrun
    | next u =>
      have hu : u.cmdReady = false := hwait 0 u (by simp) (by simpa using hedge)
      obtain ⟨hvalid', hdata, hkeeps'⟩ := hostKeepsOffers_next hkeeps hnot hvalid hedge
      rw [runEdges_cons hedge] at hrun
      rw [List.cons_append, runEdges_cons hedge, ← hdata]
      refine ih hu hkeeps' hvalid' (fun e' he' => hrst e' (List.mem_cons_of_mem _ he')) (fun k r hk hr => ?_) hrun
      exact hwait (k + 1) r (by simpa using hk) ((runEdges_cons hedge _).trans hr)

/-- The second clause of O55, by induction on `Ports.edgesToReady`. -/
theorem keptOffer_accepted_if_responses_taken {p : Ports} {first : Pins} {later : List Pins}
    (hinv : p.block.Inv) (hkeeps : hostKeepsOffers (first :: later) p) (hvalid : first.cmdValid = true)
    (hpins : ∀ e ∈ first :: later, e.rst = false ∧ e.rspReady = true) (hlen : later.length = p.edgesToReady) :
    ∃ q : Ports, q.cmdReady = true ∧ runEdges (first :: later) p = q.accept first.cmdData := by
  induction later generalizing p first with
  | nil =>
    obtain ⟨hrst, -⟩ := hpins first (by simp)
    have hready := Ports.edgesToReady_eq_zero_iff.mp hlen.symm
    exact ⟨p, hready, (runEdges_singleton first p).trans (edge_accept hrst (Ports.cmdReady_iff.mp hready) hvalid)⟩
  | cons e later ih =>
    have hnot : p.cmdReady = false := by
      rw [← Bool.not_eq_true, ← Ports.edgesToReady_eq_zero_iff, ← hlen]
      exact Nat.succ_ne_zero _
    obtain ⟨hrst, htakes⟩ := hpins first (by simp)
    obtain ⟨u, hu, huinv, hcount⟩ := edge_nearer_to_ready hinv hlen.symm hrst htakes
    obtain ⟨hvalid', hdata, hkeeps'⟩ := hostKeepsOffers_next hkeeps hnot hvalid hu
    rw [runEdges_cons hu, ← hdata]
    exact ih huinv hkeeps' hvalid' (fun e' he' => hpins e' (List.mem_cons_of_mem _ he')) hcount.symm

/-- The third clause of O55, by induction on the wait; `rsp_ready` plays no part in it. -/
theorem keptOffer_accepted_after_wait {p : Ports} {n : Nat} {first : Pins} {later : List Pins}
    (hlink : p.link = restingFor n) (hkeeps : hostKeepsOffers (first :: later) p) (hvalid : first.cmdValid = true)
    (hrst : ∀ e ∈ first :: later, e.rst = false) (hlen : later.length = n) :
    runEdges (first :: later) p = Ports.accept first.cmdData { p with link := .ready } := by
  induction n generalizing p first later with
  | zero =>
    obtain rfl := List.length_eq_zero_iff.mp hlen
    have hlink : p.link = .ready := hlink
    rw [runEdges_singleton, edge_accept (hrst first (by simp)) hlink hvalid, ← hlink]
  | succ n ih =>
    obtain ⟨e, later, rfl⟩ := List.exists_cons_of_length_eq_add_one hlen
    have hedge := edge_resting (hrst first (by simp)) hlink
    have hnot : p.cmdReady = false := by simp [Ports.cmdReady_eq_false_iff, hlink, restingFor]
    obtain ⟨hvalid', hdata, hkeeps'⟩ := hostKeepsOffers_next hkeeps hnot hvalid hedge
    rw [runEdges_cons hedge, ← hdata]
    exact ih rfl hkeeps' hvalid' (fun e' he' => hrst e' (List.mem_cons_of_mem _ he')) (by simpa using hlen)

/-- Settles O55: one lemma per clause. -/
theorem heldCommandIsAcceptedAsOffered : Obligations.HeldCommandIsAcceptedAsOffered :=
  ⟨fun _ _ _ _ _ => keptOffer_accepted_at_first_ready,
    fun p hinv => ⟨p.edgesToReady, fun _ _ => keptOffer_accepted_if_responses_taken hinv⟩,
    fun _ n _ _ => keptOffer_accepted_after_wait (n := n + 1)⟩

end Sys2Proof.Machine
end
